-- ==== Sys2Proof/Word.lean ====
section
/-! DEFINITION. The word types of the block's ports (spec 00_scope R8, R9; 20_memory R45).
Every value is unsigned; bit 0 is the least significant bit.  The spec's `a +8 b` is addition of two `Byte`s. -/

namespace Sys2Proof

/-- A byte of the output port, an opcode, or the accumulator: `BYTE_WIDTH = ACC_WIDTH = 8` (R8). -/
abbrev Byte := BitVec 8

/-- A word of the command port: `CMD_WIDTH = 10` (R8, R60). -/
abbrev CommandWord := BitVec 10

/-- The word of the read-only status port (R31). -/
abbrev StatusWord := BitVec 16

end Sys2Proof
end

