-- ==== Sys2Proof/Syntax.lean ====
section
/-! DEFINITION. The commands of the block, one constructor per row of spec/opcode_table.json (30_encoding R61, R62). -/

namespace Sys2Proof

/-- A decoded command word (R66). -/
inductive Instr where
  /-- `DATA(v)`, `00dddddddd`: one opcode of the open packet; the operand is typed as a byte (R63, R101). -/
  | data (v : Byte)
  /-- `START`, `01xxxxxxxx`: open a packet (R100). -/
  | start
  /-- `END`, `10xxxxxxxx`: close the packet (R102). -/
  | endCmd
  /-- The reserved kind, `11xxxxxxxx` (R65, R104). -/
  | reserved
deriving DecidableEq, Repr

end Sys2Proof
end

