-- ==== Sys2Proof/WellFormed.lean ====
section
/-! DEFINITION. The range checks at the block's type boundary (30_encoding R60, R63; 60_exceptions R128),
and well-formedness of a command, which those types already guarantee. -/

namespace Sys2Proof

/-- DOC's range condition on an opcode given as a natural number (R63, R85). -/
def opcodeInRange (x : Nat) : Bool := x ≤ 255

/-- A number that the 10-bit command port can carry (R60). -/
def commandWordInRange (n : Nat) : Bool := n < 1024

/-- Well-formedness of a command: the range condition on DATA's operand, which holds of every `Byte`
(R63: "holds at this port by construction"); the other commands have no operand. -/
def Instr.wellFormed : Instr → Bool
  | .data v => opcodeInRange v.toNat
  | .start => true
  | .endCmd => true
  | .reserved => true

end Sys2Proof
end

