-- ==== Sys2Proof/Decode.lean ====
section
/-! DEFINITION. The command word: its fields, the pattern table, the decoder and the encoder
(30_encoding R60 to R66). -/

namespace Sys2Proof

/-- `KIND`, bits 9:8 of the command word (R60). -/
def kindField (w : CommandWord) : BitVec 2 := w.extractLsb' 8 2

/-- `DATA`, bits 7:0 of the command word (R60, R63). -/
def dataField (w : CommandWord) : Byte := w.extractLsb' 0 8

/-- The decoder of R66: total, one command for each of the 1024 words. -/
def decode (w : CommandWord) : Instr :=
  match (kindField w).toNat with
  | 0 => .data (dataField w)
  | 1 => .start
  | 2 => .endCmd
  | _ => .reserved

/-- A row of R61's pattern table: a word selects the row when `(word & mask) = pattern`. -/
structure EncodingRow where
  mnemonic : String
  pattern : CommandWord
  mask : CommandWord
deriving DecidableEq, Repr

/-- The four rows of R61. -/
def encodingTable : List EncodingRow :=
  [ ⟨"DATA", 0x000, 0x300⟩,
    ⟨"START", 0x100, 0x300⟩,
    ⟨"END", 0x200, 0x300⟩,
    ⟨"RESERVED", 0x300, 0x300⟩ ]

/-- R61: "A word selects a row when `(word & mask) = match`." -/
def EncodingRow.selects (r : EncodingRow) (w : CommandWord) : Bool := w &&& r.mask == r.pattern

/-- The command's name in the pattern table (R61). -/
def Instr.mnemonic : Instr → String
  | .data _ => "DATA"
  | .start => "START"
  | .endCmd => "END"
  | .reserved => "RESERVED"

/-- Why a number is no command word. -/
inductive DecodeError where
  /-- The number needs more than the command port's 10 bits (R60). -/
  | wordTooWide (n : Nat)
deriving DecidableEq, Repr

/-- Decoding of a number offered as a command word: total, and what does not fit the port is rejected by name (R60). -/
def decodeNumber (n : Nat) : Except DecodeError Instr :=
  if commandWordInRange n then .ok (decode (BitVec.ofNat 10 n)) else .error (.wordTooWide n)

/-- A table word of `nbits` bits, as a number: the bits above `nbits` are 0. -/
def tableNumber (nbits w : Nat) : Nat := w % 2 ^ nbits

/-- The same word as the 10-bit command port carries it (log entry 7, DESIGN CHOICE: bits above bit 9 are cut off). -/
def portWord (nbits w : Nat) : CommandWord := BitVec.ofNat 10 (tableNumber nbits w)

/-- The command that the decoder reads from a word numbered as spec/opcode_table.json numbers it
(log entry 7: DESIGN CHOICE, a word with a bit above bit 9 is no command word). -/
def decodeTableWord (nbits w : Nat) : Option Instr :=
  match decodeNumber (tableNumber nbits w) with
  | .ok i => some i
  | .error _ => none

/-- The canonical word of a command: `KIND` then `DATA`, and 0 in ignored bits (R61, R64).
For the reserved kind the word is log entry 6's (DESIGN CHOICE: R64 fixes it for START and END only). -/
def encode : Instr → CommandWord
  | .data v => (0b00#2 ++ v : BitVec 10)
  | .start => 0x100
  | .endCmd => 0x200
  | .reserved => 0x300

end Sys2Proof
end

