-- ==== Sys2Proof/Config.lean ====
section
/-! DEFINITION. The one build-time parameter the spec leaves open (00_scope R8; 92_eei_decisions D4). -/

namespace Sys2Proof

/-- The values of `EMPTY_POLICY`: what END does with a packet that holds no opcode (R8, R103). -/
inductive EmptyPolicy where
  /-- `ACCEPT`: END emits `encode([])`. -/
  | accept
  /-- `REJECT`: END raises `Fault(EMPTY)`. -/
  | reject
deriving DecidableEq, Repr

/-- The default R8 states for `EMPTY_POLICY`. -/
def Config.defaultEmptyPolicy : EmptyPolicy := .accept

end Sys2Proof
end

