-- ==== Sys2Proof/Machine/State.lean ====
section
/-! DEFINITION. The state of the block (10_state R20 to R27), the inputs that reach it, the outcomes'
reason types, and the state after power-on reset (R35). -/

namespace Sys2Proof.Machine

/-- Whether a packet is open (R21). -/
inductive Phase where
  /-- `IDLE`, encoding 0: no packet is open. -/
  | idle
  /-- `OPEN`, encoding 1: a START has been taken and its END has not. -/
  | opened
deriving DecidableEq, Repr

/-- The values of `fault_cause` (R26, R120). -/
inductive Cause where
  /-- `NONE`, code 0. -/
  | noCause
  /-- `ILLEGAL_CMD`, code 1: a word of the reserved kind (R125). -/
  | illegalCmd
  /-- `PROTOCOL`, code 2: START while open, DATA or END while idle (R126). -/
  | protocol
  /-- `EMPTY`, code 3: END of an empty packet under `REJECT` (R127). -/
  | empty
deriving DecidableEq, Repr

/-- What the host and the platform can do to the block between two states (R155: "each a command or a reset").
A status read is no input: it has no side effect (R31). -/
inductive Input where
  /-- The host presents a command word on the command port (R60, R156). -/
  | command (w : CommandWord)
  /-- The platform raises reset between two commands (R150). -/
  | reset
  /-- The platform raises reset inside the command `w`, when `k` bytes of its emit list have reached
  the output (R151; log entry 4, DEDUCED). -/
  | commandCutByReset (w : CommandWord) (k : Nat)
deriving DecidableEq, Repr

/-- The block's state: the tuple of R20, then two fields of the model's own. -/
structure State where
  /-- R21. -/
  phase : Phase
  /-- The checksum accumulator (R22). -/
  acc : Byte
  /-- The open packet has taken at least one DATA (R24). -/
  hasData : Bool
  /-- The sticky fault bit (R25). -/
  fault : Bool
  /-- The cause of the first fault since reset (R26). -/
  faultCause : Cause
  /-- Every byte emitted since power-on, oldest first (R27). -/
  wire : List Byte
  /-- The MODEL's own: the value of `EMPTY_POLICY` that this block was built with (R8).  R20 and R32 say that
  it is no state and that no command changes it; it stands here because `exec` has no other argument
  (log entry 1, DESIGN CHOICE). -/
  emptyPolicy : EmptyPolicy
  /-- The MODEL's own: what the host and the platform present to the block, next one first
  (log entry 2, DESIGN CHOICE). -/
  port : List Input
deriving DecidableEq, Repr

/-- The reasons for which the MODEL stops with a fault: there is none.  A fault of the block is a state
(`State.fault`), in which it goes on taking commands (R121, R124; log entry 5, DEDUCED). -/
inductive Fault where
deriving DecidableEq, Repr

/-- The reasons for which the model refuses an instruction. -/
inductive Refusal where
  /-- Raised by `exec` for an instruction that has no meaning yet; safe.  No arm raises it: all four
  commands have their meaning. -/
  | notModelled (mnemonic : String)
deriving DecidableEq, Repr

/-- What a command or a step answers. -/
abbrev Result := Host.Outcome State Fault Refusal

/-- The state after power-on reset (R35), with the default of R8 for the parameter and nothing presented yet. -/
def State.reset : State where
  phase := .idle
  acc := 0x00
  hasData := false
  fault := false
  faultCause := .noCause
  wire := []
  emptyPolicy := Config.defaultEmptyPolicy
  port := []

end Sys2Proof.Machine
end

