-- ==== Sys2Proof/Machine/Flags.lean ====
section
/-! DEFINITION. The status port (10_state R31) and the encodings of the flags in it (R21, R24 to R26). -/

namespace Sys2Proof.Machine

/-- The 1-bit encoding of `phase` (R21). -/
def Phase.code : Phase → BitVec 1
  | .idle => 0
  | .opened => 1

/-- The 2-bit encoding of `fault_cause` (R26). -/
def Cause.code : Cause → BitVec 2
  | .noCause => 0
  | .illegalCmd => 1
  | .protocol => 2
  | .empty => 3

/-- The word `STATUS`, high bits first: ACC, three reserved bits that read 0, CAUSE, FAULT, HAS_DATA, OPEN (R31). -/
def status (s : State) : StatusWord :=
  s.acc ++ 0#3 ++ s.faultCause.code ++ BitVec.ofBool s.fault ++ BitVec.ofBool s.hasData ++ s.phase.code

/-- END's empty check fails: no DATA in the packet, under `REJECT` (R102, R127). -/
def emptyRejected (s : State) : Bool := !s.hasData && s.emptyPolicy == .reject

end Sys2Proof.Machine
end

