-- ==== Sys2Proof/Machine/Packet.lean ====
section
/-! DEFINITION. The pure functions of the block: complement, checksum, the 8-bit accumulation, and the reference
functions `encode` and `encode_checked` (40_pure_functions R80 to R85). -/

namespace Sys2Proof.Machine

/-- The three preamble bytes (R71). -/
def preamble : List Byte := [0x55, 0xFF, 0x00]

/-- The complement unit (R80, R10). -/
def complement (v : Byte) : Byte := ~~~v

/-- A data byte followed by its complement (R73). -/
def pair (v : Byte) : List Byte := [v, complement v]

/-- The pairs of a list of opcodes, in order (R83). -/
def pairs (ops : List Byte) : List Byte := ops.flatMap pair

/-- `sum(ops)` over the unbounded integers (R10). -/
def opcodeSum (ops : List Byte) : Nat := (ops.map BitVec.toNat).sum

/-- The checksum of a list of opcodes (R81). -/
def checksum (ops : List Byte) : Byte := BitVec.ofNat 8 (opcodeSum ops % 256)

/-- Accumulation with a wrap at 8 bits on every add (R82). -/
def acc8 (ops : List Byte) : Byte := ops.foldl (fun a v => a + v) 0x00

/-- Step 3 of R83's algorithm: the loop over the opcodes, with its output and its unmasked accumulator. -/
def encodeLoop : List Byte → List Byte → Nat → List Byte × Nat
  | [], out, a => (out, a)
  | v :: vs, out, a => encodeLoop vs (out ++ [v] ++ [complement v]) (a + v.toNat)

/-- The reference function `encode` (R83), step by step. -/
def encodePacket (ops : List Byte) : List Byte :=
  let done := encodeLoop ops preamble 0
  let c : Byte := BitVec.ofNat 8 (done.2 % 256)
  done.1 ++ [c] ++ [complement c]

/-- The error results of `encode_checked` (R85, R120). -/
inductive EncodeError where
  /-- `InvalidOpcodeError(i)`: the element at index `i` is the first above 255. -/
  | invalidOpcode (index : Nat)
  /-- `EmptySequenceError`, under `REJECT` only. -/
  | emptySequence
deriving DecidableEq, Repr

/-- The index of the first element above 255, counting from `i` (R85). -/
def firstInvalid : Nat → List Nat → Option Nat
  | _, [] => none
  | i, x :: xs => if opcodeInRange x then firstInvalid (i + 1) xs else some i

/-- The reference function over an untyped input (R85): range first, then emptiness, then `encode`. -/
def encodeChecked (xs : List Nat) (policy : EmptyPolicy) : Except EncodeError (List Byte) :=
  match firstInvalid 0 xs with
  | some i => .error (.invalidOpcode i)
  | none =>
    if xs = [] ∧ policy = .reject then .error .emptySequence
    else .ok (encodePacket (xs.map (BitVec.ofNat 8)))

end Sys2Proof.Machine
end

