-- ==== Sys2Proof/Machine/Operands.lean ====
section
/-! DEFINITION. The operands of the commands (41_commands R114) and the byte lists that they emit (R101, R102). -/

namespace Sys2Proof.Machine

/-- DATA's operand is immediate and taken as is: not extended, scaled or shifted (R63, R114). -/
def dataOperand (v : Byte) : Byte := v

/-- END's operand is the internal accumulator, which it reads as the checksum (R22, R114). -/
def endOperand (s : State) : Byte := s.acc

/-- The preamble, where the open packet has not emitted it yet (R24, R101, R102). -/
def pendingPreamble (s : State) : List Byte := if s.hasData then [] else preamble

/-- The emit list of DATA(v) in an open packet (R101). -/
def dataBytes (v : Byte) (s : State) : List Byte := pendingPreamble s ++ pair (dataOperand v)

/-- The emit list of an END that closes the packet (R102). -/
def endBytes (s : State) : List Byte := pendingPreamble s ++ pair (endOperand s)

end Sys2Proof.Machine
end

