-- ==== Sys2Proof/Machine/Ops.lean ====
section
/-! DEFINITION. The named operations that the commands share: emission, the fault gate, fault entry, reset, and
the writes of `phase`, `acc` and `has_data` (00_scope R12; 60_exceptions R121, R124; 70_reset_and_hazards R150). -/

namespace Sys2Proof.Machine

/-- `emit(bs)`: append to the output, in order (R12, R27). -/
def emit (bs : List Byte) (s : State) : State := { s with wire := s.wire ++ bs }

/-- Fault entry, the block's one exception entry (R121): it writes the two fault fields and nothing else. -/
def raiseFault (c : Cause) (s : State) : State := { s with fault := true, faultCause := c }

/-- Reset, the only exit from the fault state (R123, R131, R150); `wire` stays (R35), and so do the parameter and
the inputs still to come (log entry 4, DEDUCED). -/
def resetBlock (s : State) : State :=
  { s with phase := .idle, acc := 0x00, hasData := false, fault := false, faultCause := .noCause }

/-- The fault gate (R124): while `fault = 1` a command is taken and discarded. -/
def gate (body : State → State) (s : State) : Result := .next (if s.fault then s else body s)

/-- START's writes (R100). -/
def openPacket (s : State) : State := { s with phase := .opened, acc := 0x00, hasData := false }

/-- DATA's writes of the accumulator and `has_data` (R101). -/
def accumulate (v : Byte) (s : State) : State := { s with acc := s.acc + v, hasData := true }

/-- END's writes; `acc` keeps the checksum just sent (R102). -/
def closePacket (s : State) : State := { s with phase := .idle, hasData := false }

end Sys2Proof.Machine
end

