-- ==== Sys2Proof/Machine/Commands.lean ====
section
/-! DEFINITION. The meanings of the four command kinds (41_commands R100 to R104).  Each is one atomic step (R13):
the fault gate, then the rest of the rule's pseudocode. -/

namespace Sys2Proof.Machine

/-- DATA(v) past the gate (R101): the phase check, the emit list, the writes. -/
def dataEffect (v : Byte) (s : State) : State :=
  match s.phase with
  | .idle => raiseFault .protocol s
  | .opened => accumulate (dataOperand v) (emit (dataBytes v s) s)

/-- START past the gate (R100). -/
def startEffect (s : State) : State :=
  match s.phase with
  | .opened => raiseFault .protocol s
  | .idle => openPacket s

/-- END past the gate (R102, R103): the phase check, the empty check, the emit list, the writes. -/
def endEffect (s : State) : State :=
  match s.phase with
  | .idle => raiseFault .protocol s
  | .opened => if emptyRejected s then raiseFault .empty s else closePacket (emit (endBytes s) s)

/-- The reserved kind past the gate (R104). -/
def reservedEffect (s : State) : State := raiseFault .illegalCmd s

/-- DATA(v): add one opcode to the open packet (R101). -/
def execData (v : Byte) (s : State) : Result := gate (dataEffect v) s

/-- START: open a packet (R100). -/
def execStart (s : State) : Result := gate startEffect s

/-- END: close the packet and emit the checksum pair (R102, R103). -/
def execEnd (s : State) : Result := gate endEffect s

/-- The reserved kind: always a fault (R104). -/
def execReserved (s : State) : Result := gate reservedEffect s

end Sys2Proof.Machine
end

