-- ==== Sys2Proof/Machine/Dispatch.lean ====
section
/-! DEFINITION. One arm per command, each one direct call of its meaning. -/

namespace Sys2Proof.Machine

def exec (i : Instr) (s : State) : Host.Outcome State Fault Refusal :=
  match i with
  | .data v => Sys2Proof.Machine.execData v s
  | .start => Sys2Proof.Machine.execStart s
  | .endCmd => Sys2Proof.Machine.execEnd s
  | .reserved => Sys2Proof.Machine.execReserved s

end Sys2Proof.Machine
end

