-- ==== Sys2Proof/Machine/Events.lean ====
section
/-! DEFINITION. What the block does with each input: a command, a reset between commands, a reset inside one
(70_reset_and_hazards R150, R151, R153). -/

namespace Sys2Proof.Machine

/-- The bytes that the command `i` appends to `wire` when it is taken in the state `s` (R105):
read off the command's own meaning, so that the two cannot disagree. -/
def emitted (i : Instr) (s : State) : List Byte :=
  match exec i s with
  | .next t => t.wire.drop s.wire.length
  | .fault _ => []
  | .refused _ => []

/-- Reset inside the command `i`: the first `k` bytes of its emit list reach `wire` (all of them where there are
fewer), none of its other writes takes effect, and the block is reset (R151; log entry 4, DEDUCED). -/
def resetDuring (i : Instr) (k : Nat) (s : State) : State := resetBlock (emit ((emitted i s).take k) s)

/-- The block's answer to one input. -/
def respond (e : Input) (s : State) : Result :=
  match e with
  | .command w => exec (decode w) s
  | .reset => .next (resetBlock s)
  | .commandCutByReset w k => .next (resetDuring (decode w) k s)

/-- With nothing presented the block waits (R41, R153; log entry 3, DESIGN CHOICE). -/
def await (s : State) : Result := .next s

/-- The inputs of a list of command words, one after another. -/
def commandInputs (ws : List CommandWord) : List Input := ws.map .command

end Sys2Proof.Machine
end

