-- ==== Sys2Proof/Machine/Step.lean ====
section
/-! DEFINITION. One step of the block: it takes the next input that is presented to it (10_state R29: each command is
consumed exactly once, in the order presented). -/

namespace Sys2Proof.Machine

def step (s : State) : Host.Outcome State Fault Refusal :=
  match s.port with
  | [] => await s
  | e :: rest => respond e { s with port := rest }

/-- `s` with the word `w` presented on the command port before everything else (log entry 2, DESIGN CHOICE). -/
def State.withFetchWord (s : State) (nbits w : Nat) : State :=
  { s with port := .command (portWord nbits w) :: s.port }

end Sys2Proof.Machine
end

