-- ==== Sys2Proof/Laws/PerInstr.lean ====
section
/-! SUPPORT. One family per statement about every command as syntax. -/

/-- The word that `encode` gives a command carries that command's KIND, and DATA's operand or 0 in bits 7:0 (R61, R64). -/
def Sys2Proof.Laws.EncodedFields.Statement (i : Sys2Proof.Instr) : Prop :=
  (Sys2Proof.kindField (Sys2Proof.encode i)).toNat =
      (match i with | .data _ => 0 | .start => 1 | .endCmd => 2 | .reserved => 3) ∧
    Sys2Proof.dataField (Sys2Proof.encode i) =
      (match i with | .data v => v | .start => 0 | .endCmd => 0 | .reserved => 0)

theorem Sys2Proof.Laws.EncodedFields.data (v : Sys2Proof.Byte) :
    Sys2Proof.Laws.EncodedFields.Statement (.data v) := by
  constructor
  · simp only [Sys2Proof.kindField, Sys2Proof.encode]
    rw [BitVec.extractLsb'_append_eq_of_le (by decide)]
    rfl
  · simp only [Sys2Proof.dataField, Sys2Proof.encode]
    rw [BitVec.extractLsb'_append_eq_of_add_le (by decide)]
    exact BitVec.extractLsb'_eq_self

theorem Sys2Proof.Laws.EncodedFields.start : Sys2Proof.Laws.EncodedFields.Statement .start := by
  unfold Sys2Proof.Laws.EncodedFields.Statement
  decide

theorem Sys2Proof.Laws.EncodedFields.endCmd : Sys2Proof.Laws.EncodedFields.Statement .endCmd := by
  unfold Sys2Proof.Laws.EncodedFields.Statement
  decide

theorem Sys2Proof.Laws.EncodedFields.reserved : Sys2Proof.Laws.EncodedFields.Statement .reserved := by
  unfold Sys2Proof.Laws.EncodedFields.Statement
  decide
end

