-- ==== Sys2Proof/Machine/Assembler.lean ====
section
/-! DEFINITION. The spec's assembler for command programs: its lines, the pseudo-instruction SEND, and the text form
(30_encoding R77, R78).  The choices R77 leaves open are log entry 8 (DESIGN CHOICE). -/

namespace Sys2Proof.Machine

/-- A line of a command program (R77, R78). -/
inductive AsmLine where
  /-- `START`. -/
  | start
  /-- `DATA <hh>`; the operand is still a number, range-checked by the assembler. -/
  | data (operand : Nat)
  /-- `END`. -/
  | endLine
  /-- `SEND <hh> ... <hh>` (R78). -/
  | send (operands : List Nat)
  /-- `.word`, a raw command word; the only way to write a reserved one. -/
  | rawWord (n : Nat)
deriving DecidableEq, Repr

/-- Why the assembler refuses a program: it then emits no word at all (R128). -/
inductive AsmError where
  /-- A token that is not two hex digits where an operand stands (R77): the text form of `InvalidOpcodeError` (R128). -/
  | malformedOperand (token : List Char)
  /-- A token that is not `0x` and three hex digits after `.word`. -/
  | malformedWord (token : List Char)
  /-- A line that begins with no known mnemonic. -/
  | unknownMnemonic (token : List Char)
  /-- Too few or too many tokens after a mnemonic. -/
  | operandCount
  /-- A DATA or SEND operand above 255 (R77, R128). -/
  | operandOutOfRange (n : Nat)
  /-- A raw word above 10 bits (R60). -/
  | wordOutOfRange (n : Nat)
deriving DecidableEq, Repr

/-- The check on a line's operands (R63, R77, R128). -/
def AsmLine.wellFormed : AsmLine → Bool
  | .start => true
  | .data n => opcodeInRange n
  | .endLine => true
  | .send ns => ns.all opcodeInRange
  | .rawWord n => commandWordInRange n

/-- The commands of SEND with the opcodes `vs` (R78): START, a DATA for each, END. -/
def sendCommands (vs : List Byte) : List Instr := .start :: (vs.map Instr.data ++ [.endCmd])

/-- DATA's word, `0x000 | hh` (R77); an operand above 255 is refused. -/
def dataWord (n : Nat) : Except AsmError CommandWord :=
  if opcodeInRange n then .ok (encode (.data (BitVec.ofNat 8 n))) else .error (.operandOutOfRange n)

/-- The DATA words of a list of operands; the first one out of range refuses the list and is reported (log entry 9, DESIGN
CHOICE). -/
def dataWords : List Nat → Except AsmError (List CommandWord)
  | [] => .ok []
  | n :: ns =>
    match dataWord n with
    | .error e => .error e
    | .ok w =>
      match dataWords ns with
      | .error e => .error e
      | .ok ws => .ok (w :: ws)

/-- The words of one line (R77, R78). -/
def assembleLine : AsmLine → Except AsmError (List CommandWord)
  | .start => .ok [encode .start]
  | .data n => dataWords [n]
  | .endLine => .ok [encode .endCmd]
  | .send ns =>
    match dataWords ns with
    | .error e => .error e
    | .ok ws => .ok (encode .start :: (ws ++ [encode .endCmd]))
  | .rawWord n => if commandWordInRange n then .ok [BitVec.ofNat 10 n] else .error (.wordOutOfRange n)

/-- The words of a program, in order; an error in any line refuses all of it, and the earliest faulty line's is reported
(log entry 9, DESIGN CHOICE). -/
def assemble : List AsmLine → Except AsmError (List CommandWord)
  | [] => .ok []
  | l :: ls =>
    match assembleLine l with
    | .error e => .error e
    | .ok ws =>
      match assemble ls with
      | .error e => .error e
      | .ok rest => .ok (ws ++ rest)

/-! The text form (R77). -/

/-- White space inside a line. -/
def isBlank (c : Char) : Bool := c == ' ' || c == '\t' || c == '\r'

/-- A line without its comment: `;` starts one, to the end of the line (R77). -/
def stripComment (cs : List Char) : List Char := cs.takeWhile (fun c => c != ';')

/-- The tokens of a line; `cur` is the token being read, last character first. -/
def tokensFrom : List Char → List Char → List (List Char)
  | cur, [] => if cur.isEmpty then [] else [cur.reverse]
  | cur, c :: cs =>
    if isBlank c then
      if cur.isEmpty then tokensFrom [] cs else cur.reverse :: tokensFrom [] cs
    else tokensFrom (c :: cur) cs

/-- The white-space-separated tokens of a line (R76, R77). -/
def tokens (cs : List Char) : List (List Char) := tokensFrom [] cs

/-- A hex digit in either case (R77). -/
def hexDigit (c : Char) : Option Nat :=
  let n := c.toNat
  if 48 ≤ n ∧ n ≤ 57 then some (n - 48)
  else if 65 ≤ n ∧ n ≤ 70 then some (n - 55)
  else if 97 ≤ n ∧ n ≤ 102 then some (n - 87)
  else none

/-- Two hex digits as a number. -/
def hexPair (a b : Char) : Option Nat :=
  match hexDigit a, hexDigit b with
  | some x, some y => some (16 * x + y)
  | _, _ => none

/-- An operand token `<hh>`: two hex digits, with an optional `0x` before them (R77). -/
def hexByte : List Char → Option Nat
  | [a, b] => hexPair a b
  | [z, x, a, b] => if z == '0' && x == 'x' then hexPair a b else none
  | _ => none

/-- The token of a raw word: `0x` and three hex digits (R77). -/
def hexWord : List Char → Option Nat
  | [z, x, a, b, c] =>
    if z == '0' && x == 'x' then
      match hexDigit a, hexPair b c with
      | some h, some l => some (256 * h + l)
      | _, _ => none
    else none
  | _ => none

/-- The operands of a list of tokens; the first malformed one is reported (log entry 9, DESIGN CHOICE). -/
def hexBytes : List (List Char) → Except AsmError (List Nat)
  | [] => .ok []
  | t :: ts =>
    match hexByte t with
    | none => .error (.malformedOperand t)
    | some n =>
      match hexBytes ts with
      | .error e => .error e
      | .ok ns => .ok (n :: ns)

/-- `DATA` and its one operand; the number of tokens is checked before the token's form (log entry 9, DESIGN CHOICE). -/
def parseData (args : List (List Char)) : Except AsmError AsmLine :=
  match args with
  | [t] =>
    match hexByte t with
    | some n => .ok (.data n)
    | none => .error (.malformedOperand t)
  | _ => .error .operandCount

/-- `.word` and its one operand; the number of tokens is checked before the token's form (log entry 9, DESIGN CHOICE). -/
def parseWord (args : List (List Char)) : Except AsmError AsmLine :=
  match args with
  | [t] =>
    match hexWord t with
    | some n => .ok (.rawWord n)
    | none => .error (.malformedWord t)
  | _ => .error .operandCount

/-- `SEND` and its operands, any number of them (R78). -/
def parseSend (args : List (List Char)) : Except AsmError AsmLine :=
  match hexBytes args with
  | .ok ns => .ok (.send ns)
  | .error e => .error e

/-- A mnemonic that takes no operand. -/
def parsePlain (l : AsmLine) (args : List (List Char)) : Except AsmError AsmLine :=
  if args.isEmpty then .ok l else .error .operandCount

/-- A line from its tokens: the mnemonic, then its operands (R77, R78). -/
def parseTokens (m : List Char) (args : List (List Char)) : Except AsmError AsmLine :=
  if m = ['S', 'T', 'A', 'R', 'T'] then parsePlain .start args
  else if m = ['D', 'A', 'T', 'A'] then parseData args
  else if m = ['E', 'N', 'D'] then parsePlain .endLine args
  else if m = ['S', 'E', 'N', 'D'] then parseSend args
  else if m = ['.', 'w', 'o', 'r', 'd'] then parseWord args
  else .error (.unknownMnemonic m)

/-- A line of text; one with nothing but white space and a comment gives none. -/
def parseLine (cs : List Char) : Except AsmError (Option AsmLine) :=
  match tokens (stripComment cs) with
  | [] => .ok none
  | m :: args =>
    match parseTokens m args with
    | .ok l => .ok (some l)
    | .error e => .error e

/-- The lines of a text; `cur` is the line being read, last character first. -/
def linesFrom : List Char → List Char → List (List Char)
  | cur, [] => [cur.reverse]
  | cur, c :: cs => if c == '\n' then cur.reverse :: linesFrom [] cs else linesFrom (c :: cur) cs

/-- The program that a list of text lines spells; the earliest line that cannot be read is reported (log entry 9, DESIGN
CHOICE). -/
def parseLines : List (List Char) → Except AsmError (List AsmLine)
  | [] => .ok []
  | cs :: rest =>
    match parseLine cs with
    | .error e => .error e
    | .ok l =>
      match parseLines rest with
      | .error e => .error e
      | .ok ls => .ok (l.toList ++ ls)

/-- The command words of a program text (R77): parsed and range-checked whole before any word exists (R128, R158).
Which error is reported where a text has several is the model's choice (log entry 9, DESIGN CHOICE): any error of reading
before any error of range, and of each kind the earliest line's. -/
def assembleText (text : List Char) : Except AsmError (List CommandWord) :=
  match parseLines (linesFrom [] text) with
  | .error e => .error e
  | .ok ls => assemble ls

end Sys2Proof.Machine
end

