-- ==== Sys2Proof/Safety.lean ====
section
/-! DEFINITION. Runs, their good end, the bytes a run emits, and the invariants of reachable states, in the terms that
the statements use (70_reset_and_hazards R155; 10_state R34). -/

namespace Sys2Proof.Machine

/-- `k` steps of the block behind the host's interface: a run takes one input a step (R155). -/
def runSteps (k : Nat) (s : State) : Result := Host.Core.run Sys2Proof.core k s

/-- A run ends well when its last state has `fault = 0` and `phase = IDLE` (R155). -/
def State.endsWell (s : State) : Bool := !s.fault && s.phase == .idle

/-- The words that `port` holds next decode to the commands `cs`, whatever their ignored bits (R64); then comes `rest`. -/
def State.presents (s : State) (cs : List Instr) (rest : List Input) : Prop :=
  ∃ ws : List CommandWord, s.port = commandInputs ws ++ rest ∧ ws.map decode = cs

/-- The input is a reset, between commands or inside one (R150, R151). -/
def Input.isReset : Input → Bool
  | .command _ => false
  | .reset => true
  | .commandCutByReset _ _ => true

/-- The bytes that one input puts on `wire` (R34, R105, R151). -/
def emittedBy (e : Input) (s : State) : List Byte :=
  match e with
  | .command w => emitted (decode w) s
  | .reset => []
  | .commandCutByReset w k => (emitted (decode w) s).take k

/-- The bytes that the next `k` inputs emit, in order (R34). -/
def emittedAlong : Nat → State → List Byte
  | 0, _ => []
  | k + 1, s =>
    match s.port with
    | [] => []
    | e :: _ =>
      emittedBy e s ++
        match step s with
        | .next t => emittedAlong k t
        | .fault _ => []
        | .refused _ => []

/-- A part of `wire`: a whole packet, or the first `k` bytes of one that a reset cut off (R152, R155). -/
inductive WireSegment where
  | whole (ops : List Byte)
  | truncated (ops : List Byte) (k : Nat)
deriving DecidableEq, Repr

/-- The bytes of a segment. -/
def WireSegment.bytes : WireSegment → List Byte
  | .whole ops => encodePacket ops
  | .truncated ops k => (encodePacket ops).take k

/-- Whether a segment is a truncated packet. -/
def WireSegment.isTruncated : WireSegment → Bool
  | .whole _ => false
  | .truncated _ _ => true

/-- The first three invariants of R34, over the block's registers. -/
structure State.RegistersConsistent (s : State) : Prop where
  idle_no_data : s.phase = .idle → s.hasData = false
  no_fault_no_cause : s.fault = false → s.faultCause = .noCause
  fault_has_cause : s.fault = true → s.faultCause ≠ .noCause

/-- The open packet, as R23 and R24 describe it: `wire` ends with the preamble and the pairs of the opcodes taken so far
(nothing, where there are none), `acc` is their checksum, and `has_data` says whether there is one. -/
def State.OpenPacketOnWire (s : State) : Prop :=
  s.phase = .opened →
    ∃ (before ops : List Byte),
      s.wire = before ++ (if ops = [] then [] else preamble ++ pairs ops) ∧
      s.acc = checksum ops ∧ s.hasData = !ops.isEmpty

/-- The invariant of the block. -/
structure State.Inv (s : State) : Prop where
  registers : s.RegistersConsistent
  openPacket : s.OpenPacketOnWire

/-- What follows the protocol of R158 (START, DATA zero or more times, END, again and again; the last packet may still be
open), with the opcodes of the closed packets. -/
def FollowsProtocol (cs : List Instr) : Prop :=
  ∃ (packets : List (List Byte)) (last : List Instr),
    cs = packets.flatMap sendCommands ++ last ∧
    (last = [] ∨ ∃ ops : List Byte, last = .start :: ops.map Instr.data)

/-! The text form of operands in the terms of R77, apart from the assembler's own reader. -/

/-- The sixteen hex digits with letters in upper case, at the index of their value. -/
def upperHexDigits : List Char :=
  ['0', '1', '2', '3', '4', '5', '6', '7', '8', '9', 'A', 'B', 'C', 'D', 'E', 'F']

/-- The sixteen hex digits with letters in lower case, at the index of their value. -/
def lowerHexDigits : List Char :=
  ['0', '1', '2', '3', '4', '5', '6', '7', '8', '9', 'a', 'b', 'c', 'd', 'e', 'f']

/-- The character is a hex digit in either case (R77). -/
def isHexChar (c : Char) : Bool := upperHexDigits.contains c || lowerHexDigits.contains c

/-- The token is an operand `<hh>`: two hex digits, with an optional `0x` before them (R77). -/
def isOperandToken : List Char → Bool
  | [a, b] => isHexChar a && isHexChar b
  | ['0', 'x', a, b] => isHexChar a && isHexChar b
  | _ => false

/-- The characters are one token: some, and none of them separates tokens or lines or starts a comment
(R77; which characters separate is log entry 8's, DESIGN CHOICE). -/
def isOneToken (t : List Char) : Bool :=
  !t.isEmpty && t.all (fun c => !([' ', '\t', '\r', '\n', ';'].contains c))

/-- The text ahead of a line: nothing, or lines that the assembler reads, with their last newline. -/
def ReadableLead (lead : List Char) : Prop :=
  lead = [] ∨ ∃ (text : List Char) (lines : List AsmLine),
    lead = text ++ ['\n'] ∧ parseLines (linesFrom [] text) = .ok lines

/-- What may follow the last operand of a line: nothing, a comment, or the next line (R77). -/
def EndsOperand (tail : List Char) : Prop :=
  tail = [] ∨ (∃ rest, tail = ';' :: rest) ∨ ∃ rest, tail = '\n' :: rest

end Sys2Proof.Machine
end

