-- ==== Sys2Proof/Certificates/Slice0/Obligations.lean ====
section
/-! DEFINITION. The statements for the provers, each from numbered rules of the spec.

`State.port` and `State.emptyPolicy` are the model's own fields (log entries 1, 2 and 4, DESIGN CHOICE and DEDUCED).  Where
a statement gives a whole next state, its clause `port := rest` (the inputs taken are gone, the later ones stay) and the
unchanged `emptyPolicy` rest on those entries; every other field is the cited rule's. -/

open Sys2Proof Sys2Proof.Machine

/-! ## Encodings -/

/-- R61: exactly one row of the pattern table selects each of the 1024 words, and it is the row of the command that the
decoder reads.  R66: the decoder is total. -/
def Obligations.ExactlyOnePatternRowSelectsEachWord : Prop :=
  ∀ w : CommandWord, ∃ r ∈ encodingTable, r.selects w = true ∧ (decode w).mnemonic = r.mnemonic ∧
    ∀ r' ∈ encodingTable, r'.selects w = true → r' = r

/-- R66, with R62 to R65: KIND (bits 9:8) selects the command, DATA's operand is bits 7:0 as they are, and the others
ignore those bits. -/
def Obligations.DecoderFollowsKindField : Prop :=
  ∀ (k : BitVec 2) (d : Byte),
    (k = 0b00#2 → decode (k ++ d) = .data d) ∧
    (k = 0b01#2 → decode (k ++ d) = .start) ∧
    (k = 0b10#2 → decode (k ++ d) = .endCmd) ∧
    (k = 0b11#2 → decode (k ++ d) = .reserved)

/-- R61, R64: decoding the canonical word of a well-formed command gives it back, and the canonical word of what a word
decodes to differs from that word in ignored bits only.  (The reserved kind's canonical word is the model's, log entry 6.) -/
def Obligations.DecodeOfEncodeAndEncodeOfDecode : Prop :=
  (∀ i : Instr, i.wellFormed = true → decode (encode i) = i) ∧
  (∀ w : CommandWord, ∀ i : Instr, decode w = i →
    (encode i).extractLsb' 8 2 = w.extractLsb' 8 2 ∧
    ((∃ v, i = .data v) → encode i = w) ∧
    ((¬ ∃ v, i = .data v) → (encode i).extractLsb' 0 8 = 0))

/-- The decoder vectors of 95_test_vectors section 2.5, and the canonical words of R64 and R77. -/
def Obligations.DecoderVectorsOfTheSpec : Prop :=
  decode 0b0000000000 = .data 0x00 ∧ decode 0b0001010001 = .data 0x51 ∧ decode 0b0011111111 = .data 0xFF ∧
  decode 0b0100000000 = .start ∧ decode 0b0110101011 = .start ∧
  decode 0b1000000000 = .endCmd ∧ decode 0b1011111111 = .endCmd ∧
  decode 0b1100000000 = .reserved ∧ decode 0b1111111111 = .reserved ∧
  encode .start = 0x100 ∧ encode .endCmd = 0x200 ∧ (∀ v : Byte, encode (.data v) = v.setWidth 10)

/-! ## The step -/

/-- R29, R60: when the next input is a command word that decodes to a well-formed command, one step is that command's
meaning on the state whose port has moved past that one word.  (The port as a list is the model's, log entry 2.) -/
def Obligations.StepRunsTheDecodedCommand : Prop :=
  ∀ (s : State) (w : CommandWord) (i : Instr) (rest : List Input),
    s.port = .command w :: rest → decode w = i → i.wellFormed = true →
      step s = exec i { s with port := rest }

/-- A table word placed for the next step is decoded and run by it, with nothing else changed (log entries 2 and 7). -/
def Obligations.PlacedWordIsTheNextCommand : Prop :=
  ∀ (s : State) (nbits w : Nat) (i : Instr),
    decodeTableWord nbits w = some i → step (s.withFetchWord nbits w) = exec i s

/-- 20_memory R41 and 70_reset R153: with no command presented the block waits.  That a step then leaves the state as it
is, is the model's choice (log entry 3). -/
def Obligations.StepWithoutInputWaits : Prop :=
  ∀ s : State, s.port = [] → step s = .next s

/-- R136, R124: the block is always ready: every command in every state is taken.  That every step completes and takes one
input from the port is the rules' for a command word or a reset only: the port as a list of inputs is log entry 2's, a step
with nothing presented log entry 3's, and that a reset inside a command consumes its word log entry 4's. -/
def Obligations.EveryCommandIsTaken : Prop :=
  (∀ (i : Instr) (s : State), ∃ t, exec i s = .next t) ∧
  (∀ s : State, ∃ t, step s = .next t ∧ t.port = s.port.tail)

/-! ## The commands -/

/-- R100: START. -/
def Obligations.StartOpensAPacket : Prop :=
  (∀ w : CommandWord, w &&& 0x300 = 0x100 → decode w = .start) ∧ encode .start = 0x100 ∧
  ∀ s : State,
    (s.fault = true → exec .start s = .next s) ∧
    (s.fault = false → s.phase = .opened →
      exec .start s = .next { s with fault := true, faultCause := .protocol }) ∧
    (s.fault = false → s.phase = .idle →
      exec .start s = .next { s with phase := .opened, acc := 0x00, hasData := false })

/-- R101: DATA(v). -/
def Obligations.DataAddsOneOpcode : Prop :=
  ∀ v : Byte, decode (0b00#2 ++ v) = .data v ∧ encode (.data v) = 0b00#2 ++ v ∧
  ∀ s : State,
    (s.fault = true → exec (.data v) s = .next s) ∧
    (s.fault = false → s.phase = .idle →
      exec (.data v) s = .next { s with fault := true, faultCause := .protocol }) ∧
    (s.fault = false → s.phase = .opened → s.hasData = false →
      exec (.data v) s = .next
        { s with wire := s.wire ++ [0x55, 0xFF, 0x00, v, ~~~v], acc := s.acc + v, hasData := true }) ∧
    (s.fault = false → s.phase = .opened → s.hasData = true →
      exec (.data v) s = .next { s with wire := s.wire ++ [v, ~~~v], acc := s.acc + v, hasData := true })

/-- R102: END. -/
def Obligations.EndClosesThePacket : Prop :=
  (∀ w : CommandWord, w &&& 0x300 = 0x200 → decode w = .endCmd) ∧ encode .endCmd = 0x200 ∧
  ∀ s : State,
    (s.fault = true → exec .endCmd s = .next s) ∧
    (s.fault = false → s.phase = .idle →
      exec .endCmd s = .next { s with fault := true, faultCause := .protocol }) ∧
    (s.fault = false → s.phase = .opened → s.hasData = true →
      exec .endCmd s = .next
        { s with wire := s.wire ++ [s.acc, ~~~s.acc], phase := .idle, hasData := false }) ∧
    (s.fault = false → s.phase = .opened → s.hasData = false → s.emptyPolicy = .reject →
      exec .endCmd s = .next { s with fault := true, faultCause := .empty }) ∧
    (s.fault = false → s.phase = .opened → s.hasData = false → s.emptyPolicy = .accept →
      exec .endCmd s = .next
        { s with wire := s.wire ++ [0x55, 0xFF, 0x00, s.acc, ~~~s.acc], phase := .idle, hasData := false })

/-- R104: a command word of the reserved kind. -/
def Obligations.ReservedKindFaults : Prop :=
  (∀ w : CommandWord, w &&& 0x300 = 0x300 → decode w = .reserved) ∧
  ∀ s : State,
    (s.fault = true → exec .reserved s = .next s) ∧
    (s.fault = false → exec .reserved s = .next { s with fault := true, faultCause := .illegalCmd })

/-- R103: the empty packet, START followed directly by END, under either policy. -/
def Obligations.EmptyPacketByPolicy : Prop :=
  encodePacket [] = [0x55, 0xFF, 0x00, 0x00, 0xFF] ∧
  ∀ (s : State) (rest : List Input),
    s.fault = false → s.phase = .idle → s.presents [.start, .endCmd] rest →
      (s.emptyPolicy = .accept →
        runSteps 2 s = .next
          { s with acc := 0x00, hasData := false, wire := s.wire ++ [0x55, 0xFF, 0x00, 0x00, 0xFF], port := rest }) ∧
      (s.emptyPolicy = .reject →
        runSteps 2 s = .next
          { s with phase := .opened, acc := 0x00, hasData := false, fault := true, faultCause := .empty, port := rest })

/-- R105: the bytes that each command appends. -/
def Obligations.BytesAppendedPerCommand : Prop :=
  ∀ (i : Instr) (s t : State), exec i s = .next t →
    t.wire = s.wire ++ emitted i s ∧
    (s.fault = true ∨ t.fault = true → emitted i s = []) ∧
    (s.fault = false → t.fault = false →
      (i = .start → emitted i s = []) ∧
      (∀ v, i = .data v → s.hasData = false → emitted i s = [0x55, 0xFF, 0x00, v, ~~~v]) ∧
      (∀ v, i = .data v → s.hasData = true → emitted i s = [v, ~~~v]) ∧
      (i = .endCmd → s.hasData = true → emitted i s = [s.acc, ~~~s.acc]) ∧
      (i = .endCmd → s.hasData = false → s.Inv →
        s.emptyPolicy = .accept ∧ emitted i s = [0x55, 0xFF, 0x00, 0x00, 0xFF]))

/-- The frame of the commands that emit nothing, START and RESERVED: `wire` and the build-time parameter stay; START leaves
the fault fields, and RESERVED the packet's registers, unless R121 or R124 says otherwise (41_commands R100, R104). -/
def Obligations.FrameOfCommandsThatEmitNothing : Prop :=
  ∀ (i : Instr) (s t : State), (i = .start ∨ i = .reserved) → exec i s = .next t →
    t.wire = s.wire ∧ t.emptyPolicy = s.emptyPolicy ∧ t.port = s.port ∧
    (i = .start → s.phase = .idle → t.fault = s.fault ∧ t.faultCause = s.faultCause) ∧
    (i = .reserved ∨ s.phase = .opened → t.phase = s.phase ∧ t.acc = s.acc ∧ t.hasData = s.hasData)

/-- The frame of the commands that emit, DATA and END (41_commands R101, R102): DATA leaves `phase`, END leaves `acc`,
neither changes a byte that is already on `wire`, and where no fault is raised the fault fields stay. -/
def Obligations.FrameOfCommandsThatEmit : Prop :=
  ∀ (i : Instr) (s t : State), ((∃ v, i = .data v) ∨ i = .endCmd) → exec i s = .next t →
    (∀ n, n < s.wire.length → t.wire[n]? = s.wire[n]?) ∧
    t.emptyPolicy = s.emptyPolicy ∧ t.port = s.port ∧
    ((∃ v, i = .data v) → t.phase = s.phase) ∧
    (i = .endCmd → t.acc = s.acc) ∧
    (s.phase = .opened → t.fault = s.fault → t.faultCause = s.faultCause)

/-- R21, R22, R24: which command writes `phase`, `acc` and `has_data`, where it raises no fault and is not discarded; where it
does or is, none of them changes. -/
def Obligations.RegisterWritesOfEachCommand : Prop :=
  ∀ (i : Instr) (s t : State), exec i s = .next t →
    (t.fault = true → t.phase = s.phase ∧ t.acc = s.acc ∧ t.hasData = s.hasData) ∧
    (t.fault = false →
      (i = .start → t.phase = .opened ∧ t.acc = 0x00 ∧ t.hasData = false) ∧
      (∀ v, i = .data v → t.phase = .opened ∧ s.phase = .opened ∧ t.acc = s.acc + v ∧ t.hasData = true) ∧
      (i = .endCmd → t.phase = .idle ∧ s.phase = .opened ∧ t.acc = s.acc ∧ t.hasData = false) ∧
      i ≠ .reserved)

/-- R46: commands are not idempotent: two DATA(v) in an open packet add `v` twice and emit two pairs. -/
def Obligations.TwoEqualDataCommandsAddTwice : Prop :=
  ∀ (v : Byte) (s : State), s.fault = false → s.phase = .opened → s.hasData = true →
    ∃ t, exec (.data v) s = .next t ∧
      exec (.data v) t = .next { s with acc := s.acc + v + v, wire := s.wire ++ [v, ~~~v, v, ~~~v] }

/-! ## Faults -/

/-- R121: fault entry is precise: a command that raises a fault writes the two fault fields and nothing else. -/
def Obligations.FaultEntryIsPrecise : Prop :=
  ∀ (i : Instr) (s t : State), exec i s = .next t → s.fault = false → t.fault = true →
    t.faultCause ≠ .noCause ∧ t = { s with fault := true, faultCause := t.faultCause }

/-- R124: while `fault = 1` every command word is taken and discarded: nothing but the port moves; and a faulted state is
never a good end of a run. -/
def Obligations.FaultGateDiscardsEveryWord : Prop :=
  ∀ s : State, s.fault = true →
    s.endsWell = false ∧
    ∀ (w : CommandWord) (rest : List Input), s.port = .command w :: rest → step s = .next { s with port := rest }

/-- R123, R25, R26: the fault is sticky and keeps its first cause: through any number of command words, a faulted block
stays as it is, and a reset then clears it. -/
def Obligations.FaultIsStickyUntilReset : Prop :=
  ∀ (s : State) (ws : List CommandWord) (rest : List Input), s.fault = true →
    (s.port = commandInputs ws ++ rest → runSteps ws.length s = .next { s with port := rest }) ∧
    (s.port = commandInputs ws ++ .reset :: rest →
      runSteps (ws.length + 1) s = .next
        { s with phase := .idle, acc := 0x00, hasData := false, fault := false, faultCause := .noCause, port := rest })

/-- R26: `fault_cause` is written by a command only when `fault` goes from 0 to 1, never to NONE. -/
def Obligations.CauseIsWrittenOnlyOnFaultEntry : Prop :=
  ∀ (i : Instr) (s t : State), exec i s = .next t → t.faultCause ≠ s.faultCause ∨ t.fault ≠ s.fault →
    s.fault = false ∧ t.fault = true ∧
    ((t.faultCause = .illegalCmd ∧ i = .reserved) ∨
     (t.faultCause = .protocol ∧
       ((i = .start ∧ s.phase = .opened) ∨ (((∃ v, i = .data v) ∨ i = .endCmd) ∧ s.phase = .idle))) ∨
     (t.faultCause = .empty ∧ i = .endCmd ∧ s.hasData = false ∧ s.emptyPolicy = .reject))

/-- R125: ILLEGAL_CMD is raised by exactly the words of the reserved kind, in either phase. -/
def Obligations.IllegalCmdRaisedExactly : Prop :=
  ∀ (s t : State) (w : CommandWord) (rest : List Input),
    s.fault = false → s.port = .command w :: rest → step s = .next t →
      (t.fault = true ∧ t.faultCause = .illegalCmd ↔ w.extractLsb' 8 2 = 0b11#2)

/-- R126: PROTOCOL is raised by exactly START while open, DATA while idle and END while idle. -/
def Obligations.ProtocolRaisedExactly : Prop :=
  ∀ (i : Instr) (s t : State), s.fault = false → exec i s = .next t →
    (t.fault = true ∧ t.faultCause = .protocol ↔
      (i = .start ∧ s.phase = .opened) ∨ ((∃ v, i = .data v) ∧ s.phase = .idle) ∨ (i = .endCmd ∧ s.phase = .idle))

/-- R127: EMPTY is raised by exactly an END of an open packet without data under REJECT. -/
def Obligations.EmptyRaisedExactly : Prop :=
  ∀ (i : Instr) (s t : State), s.fault = false → exec i s = .next t →
    (t.fault = true ∧ t.faultCause = .empty ↔
      i = .endCmd ∧ s.phase = .opened ∧ s.hasData = false ∧ s.emptyPolicy = .reject)

/-- R129: the priority of the checks: the gate, the reserved kind, the phase, the empty check; past them no fault. -/
def Obligations.FaultPriorityOrder : Prop :=
  ∀ (i : Instr) (s : State), ∃ t, exec i s = .next t ∧
    (s.fault = true → t = s) ∧
    (s.fault = false →
      (i = .reserved → t.fault = true ∧ t.faultCause = .illegalCmd) ∧
      (i ≠ .reserved →
        ((i = .start ↔ s.phase = .opened) → t.fault = true ∧ t.faultCause = .protocol) ∧
        (¬ (i = .start ↔ s.phase = .opened) →
          (i = .endCmd ∧ s.hasData = false ∧ s.emptyPolicy = .reject → t.fault = true ∧ t.faultCause = .empty) ∧
          (¬ (i = .endCmd ∧ s.hasData = false ∧ s.emptyPolicy = .reject) →
            t.fault = false ∧ t.faultCause = s.faultCause))))

/-! ## The status port -/

/-- R31: the fields of `STATUS`, with the codes of R21 and R26, and its value at power-on. -/
def Obligations.StatusWordFields : Prop :=
  status State.reset = 0x0000 ∧
  ∀ s : State,
    ((status s).getLsbD 0 = true ↔ s.phase = .opened) ∧
    (status s).getLsbD 1 = s.hasData ∧
    (status s).getLsbD 2 = s.fault ∧
    ((status s).extractLsb' 3 2 = 0 ↔ s.faultCause = .noCause) ∧
    ((status s).extractLsb' 3 2 = 1 ↔ s.faultCause = .illegalCmd) ∧
    ((status s).extractLsb' 3 2 = 2 ↔ s.faultCause = .protocol) ∧
    ((status s).extractLsb' 3 2 = 3 ↔ s.faultCause = .empty) ∧
    (status s).extractLsb' 5 3 = 0 ∧
    (status s).extractLsb' 8 8 = s.acc

/-- R31, R33: `STATUS` shows the whole state of the block but `wire`: equal words, equal registers, and then the same
command leaves equal words again where the two blocks were built with the same policy. -/
def Obligations.StatusDeterminesTheRegisters : Prop :=
  ∀ s t : State, status s = status t →
    (s.phase = t.phase ∧ s.acc = t.acc ∧ s.hasData = t.hasData ∧ s.fault = t.fault ∧ s.faultCause = t.faultCause) ∧
    (s.emptyPolicy = t.emptyPolicy → ∀ (i : Instr) (s' t' : State), exec i s = .next s' → exec i t = .next t' →
      status s' = status t' ∧ emitted i s = emitted i t)

/-- R32: `EMPTY_POLICY` does not appear in `STATUS`, and no run changes it. -/
def Obligations.EmptyPolicyIsFixedAndUnseen : Prop :=
  (∀ (s : State) (p : EmptyPolicy), status { s with emptyPolicy := p } = status s) ∧
  (∀ (k : Nat) (s t : State), runSteps k s = .next t → t.emptyPolicy = s.emptyPolicy)

/-! ## Reset -/

/-- R35: the power-on values, what a later reset leaves, and that the reset value of `acc` shows in `STATUS` only. -/
def Obligations.ResetValues : Prop :=
  State.reset.phase = .idle ∧ State.reset.acc = 0x00 ∧ State.reset.hasData = false ∧ State.reset.fault = false ∧
  State.reset.faultCause = .noCause ∧ State.reset.wire = [] ∧
  (∀ (s : State) (rest : List Input), s.port = .reset :: rest → ∃ t, step s = .next t ∧
    t.phase = .idle ∧ t.acc = 0x00 ∧ t.hasData = false ∧ t.fault = false ∧ t.faultCause = .noCause ∧ t.wire = s.wire) ∧
  (∀ a : Byte, exec .start { State.reset with acc := a } = exec .start State.reset ∧
    ∀ i : Instr, emitted i { State.reset with acc := a } = [])

/-- R150: reset sets the registers from any state; no command leaves the fault state, and none abandons an open packet:
one that closes it is an END that emits the checksum pair. -/
def Obligations.ResetIsTheOnlyWayOut : Prop :=
  (∀ (s : State) (rest : List Input), s.port = .reset :: rest →
    step s = .next
      { s with phase := .idle, acc := 0x00, hasData := false, fault := false, faultCause := .noCause, port := rest }) ∧
  (∀ (s t : State) (w : CommandWord) (rest : List Input), s.port = .command w :: rest → step s = .next t →
    (s.fault = true → t.fault = true) ∧
    (s.phase = .opened → t.phase = .idle →
      decode w = .endCmd ∧ ∃ bs, t.wire = s.wire ++ bs ++ [s.acc, ~~~s.acc]))

/-- R151: reset may come between any two commands; inside a command, whose emit list is `bs`, any first part of `bs` may
reach `wire`, none and all of it included, and none of the command's other writes takes effect.  (That the cut word is
consumed and later inputs stay presented is log entry 4's.) -/
def Obligations.ResetInsideACommandKeepsAnyPrefix : Prop :=
  (∀ (s : State) (rest : List Input), s.port = .reset :: rest → ∃ t, step s = .next t ∧ t.port = rest) ∧
  ∀ (s t : State) (w : CommandWord) (rest : List Input) (bs cut : List Byte),
    exec (decode w) { s with port := rest } = .next t → t.wire = s.wire ++ bs → cut <+: bs →
    s.port = .commandCutByReset w cut.length :: rest →
      step s = .next
        { s with phase := .idle, acc := 0x00, hasData := false, fault := false, faultCause := .noCause,
                 wire := s.wire ++ cut, port := rest }

/-- R152: reset inside an open packet leaves its preamble and its pairs on `wire`, and the block idle. -/
def Obligations.ResetInsideAPacketLeavesItTruncated : Prop :=
  ∀ (s : State) (vs : List Byte) (rest : List Input),
    s.fault = false → s.phase = .idle → vs ≠ [] → s.presents (.start :: vs.map Instr.data) (.reset :: rest) →
      runSteps (vs.length + 2) s = .next
        { s with phase := .idle, acc := 0x00, hasData := false, fault := false, faultCause := .noCause,
                 wire := s.wire ++ preamble ++ pairs vs, port := rest }

/-! ## Invariants -/

/-- The invariant at power-on. -/
def Obligations.PowerOnStateMeetsTheInvariant : Prop := State.reset.Inv

/-- From every state that meets the invariant (R34's first three points, and the open packet of R23 and R24), whatever
input comes next, a step gives a state that meets it. -/
def Obligations.StepKeepsTheInvariant : Prop :=
  ∀ s t : State, s.Inv → step s = .next t → t.Inv

/-- R34: every state reached from power-on by any inputs meets the four invariants. -/
def Obligations.ReachableStatesMeetInvariants : Prop :=
  ∀ (inputs : List Input) (p : EmptyPolicy) (k : Nat) (t : State),
    runSteps k { State.reset with emptyPolicy := p, port := inputs } = .next t →
      (t.phase = .idle → t.hasData = false) ∧
      (t.fault = false → t.faultCause = .noCause) ∧
      (t.fault = true → t.faultCause ≠ .noCause) ∧
      t.wire = emittedAlong k { State.reset with emptyPolicy := p, port := inputs }

/-- R27, R42, R47: no run removes, reorders or alters a byte of `wire`: a run appends the bytes of its inputs, those of an
earlier input before those of a later one. -/
def Obligations.WireIsOnlyAppendedInOrder : Prop :=
  ∀ (j k : Nat) (s t u : State), runSteps j s = .next t → runSteps k t = .next u →
    s.wire <+: t.wire ∧ t.wire = s.wire ++ emittedAlong j s ∧
    u.wire = s.wire ++ emittedAlong j s ++ emittedAlong k t

/-- 20_memory R47, R49: what a command does depends neither on what is on `wire` nor on what is presented later. -/
def Obligations.CommandsDoNotReadTheirOutput : Prop :=
  ∀ (i : Instr) (s t : State) (wire' : List Byte) (port' : List Input), exec i s = .next t →
    exec i { s with wire := wire', port := port' } =
      .next { t with wire := wire' ++ t.wire.drop s.wire.length, port := port' }

/-! ## The pure functions -/

/-- R80: the complement unit. -/
def Obligations.ComplementUnit : Prop :=
  ∀ v : Byte, complement v = ~~~v ∧ (complement v).toNat = 255 - v.toNat ∧ complement v = v ^^^ 0xFF ∧
    complement v ≠ v ∧ complement (complement v) = v ∧ complement 0x51 = 0xAE

/-- R81: the checksum is the unbounded sum modulo 256. -/
def Obligations.ChecksumIsTheSumModulo256 : Prop :=
  checksum [] = 0x00 ∧ checksum [0xFF, 0xFF, 0xFF] = 0xFD ∧
  ∀ ops : List Byte, (checksum ops).toNat = (ops.map BitVec.toNat).sum % 256 ∧
    (checksum ops).toNat = (ops.map BitVec.toNat).sum &&& 0xFF ∧
    (256 ∣ (ops.map BitVec.toNat).sum ↔ checksum ops = 0x00)

/-- R82: accumulation with a wrap at 8 bits on every add gives the checksum. -/
def Obligations.WrappingAccumulationIsTheChecksum : Prop :=
  ∀ ops : List Byte, acc8 ops = checksum ops

/-- R83: the step-by-step algorithm of `encode` has the closed form that the rule states. -/
def Obligations.EncodeHasItsClosedForm : Prop :=
  ∀ ops : List Byte,
    encodePacket ops =
      [0x55, 0xFF, 0x00] ++ ops.flatMap (fun v => [v, complement v]) ++ [checksum ops, complement (checksum ops)]

/-- R71, R72, R73, with the table of R70: the layout of a packet by byte offset, its length and its pairs. -/
def Obligations.PacketLayoutByOffset : Prop :=
  ∀ ops : List Byte,
    (encodePacket ops).length = 2 * ops.length + 5 ∧
    (encodePacket ops).take 3 = [0x55, 0xFF, 0x00] ∧
    (∀ i (h : i < ops.length), (encodePacket ops)[3 + 2 * i]? = some ops[i] ∧
      (encodePacket ops)[4 + 2 * i]? = some (~~~ops[i])) ∧
    (encodePacket ops)[3 + 2 * ops.length]? = some (checksum ops) ∧
    (encodePacket ops)[4 + 2 * ops.length]? = some (~~~(checksum ops)) ∧
    (∀ k, k ≤ ops.length →
      (encodePacket ops)[4 + 2 * k]? = (encodePacket ops)[3 + 2 * k]?.map (fun b => ~~~b))

/-- R87: `encode` is injective. -/
def Obligations.EncodeIsInjective : Prop :=
  ∀ xs ys : List Byte, encodePacket xs = encodePacket ys → xs = ys

/-- R88: `encode` is not idempotent: encoding a packet again never gives that packet, since the lengths differ. -/
def Obligations.EncodeIsNotIdempotent : Prop :=
  ∀ ops : List Byte,
    (encodePacket (encodePacket ops)).length = 2 * (2 * ops.length + 5) + 5 ∧
    encodePacket (encodePacket ops) ≠ encodePacket ops

/-- R89: the preamble recurs inside a packet exactly when some opcode `AA` is followed by the opcode `FF` or, as the last
opcode, by a checksum of `FF`; and any byte may stand at any offset from 3 onward. -/
def Obligations.PreambleRecursExactlyAfterAA : Prop :=
  (∀ ops : List Byte,
    (∃ j, 1 ≤ j ∧ [0x55, 0xFF, 0x00] <+: (encodePacket ops).drop j) ↔
    (∃ i, ops[i]? = some 0xAA ∧
      (ops[i + 1]? = some 0xFF ∨ (i + 1 = ops.length ∧ checksum ops = 0xFF)))) ∧
  (∀ (b : Byte) (j : Nat), 3 ≤ j → ∃ ops : List Byte, (encodePacket ops)[j]? = some b)

/-- R85: `encode_checked`: the first element above 255, then emptiness under REJECT, and else `encode`. -/
def Obligations.EncodeCheckedResults : Prop :=
  ∀ (xs : List Nat) (p : EmptyPolicy),
    (∀ (i x : Nat), xs[i]? = some x → 255 < x → (∀ (j y : Nat), j < i → xs[j]? = some y → y ≤ 255) →
      encodeChecked xs p = .error (.invalidOpcode i)) ∧
    (xs = [] → p = .reject → encodeChecked xs p = .error .emptySequence) ∧
    ((∀ x ∈ xs, x ≤ 255) → (xs ≠ [] ∨ p = .accept) →
      encodeChecked xs p = .ok (encodePacket (xs.map (BitVec.ofNat 8))))

/-! ## The commands against the reference function -/

/-- R23: after START and DATA commands `acc` is the sum of the opcodes modulo 256. -/
def Obligations.AccumulatorHoldsTheSumOfTheOpenPacket : Prop :=
  ∀ (s : State) (vs : List Byte) (rest : List Input),
    s.fault = false → s.phase = .idle → s.presents (.start :: vs.map Instr.data) rest →
      ∃ t, runSteps (vs.length + 1) s = .next t ∧ t.fault = false ∧ t.phase = .opened ∧ t.port = rest ∧
        t.acc.toNat = (vs.map BitVec.toNat).sum % 256 ∧ (vs = [] → t.acc = 0x00)

/-- R110: refinement of `encode` by START, DATA ..., END, from any idle state without a fault, under either policy. -/
def Obligations.CommandSequenceRefinesEncode : Prop :=
  ∀ (s : State) (vs : List Byte) (rest : List Input),
    s.fault = false → s.phase = .idle → s.presents (sendCommands vs) rest →
      (vs ≠ [] ∨ s.emptyPolicy = .accept →
        runSteps (vs.length + 2) s = .next
          { s with acc := checksum vs, hasData := false, wire := s.wire ++ encodePacket vs, port := rest }) ∧
      (vs = [] → s.emptyPolicy = .reject →
        runSteps (vs.length + 2) s = .next
          { s with phase := .opened, acc := 0x00, hasData := false, fault := true, faultCause := .empty, port := rest })

/-- R111: back-to-back packets: `wire` grows by the concatenation of their encodings, with no byte between. -/
def Obligations.BackToBackPacketsConcatenate : Prop :=
  ∀ (s : State) (packets : List (List Byte)) (rest : List Input),
    s.fault = false → s.phase = .idle → s.presents (packets.flatMap sendCommands) rest →
    (s.emptyPolicy = .accept ∨ ∀ vs ∈ packets, vs ≠ []) →
      ∃ t, runSteps (packets.flatMap sendCommands).length s = .next t ∧
        t.wire = s.wire ++ packets.flatMap encodePacket ∧ t.phase = .idle ∧ t.fault = false ∧ t.port = rest

/-- R112: a second START or a reserved word inside a packet that has data leaves its preamble and pairs on `wire`, with no
checksum pair; and nothing else raises a fault there. -/
def Obligations.FaultInsideAPacketLeavesItPartial : Prop :=
  (∀ (i : Instr) (s t : State), s.fault = false → s.phase = .opened → s.hasData = true → exec i s = .next t →
    (t.fault = true ↔ i = .start ∨ i = .reserved)) ∧
  ∀ (s : State) (vs : List Byte) (bad : Instr) (rest : List Input),
    s.fault = false → s.phase = .idle → vs ≠ [] → (bad = .start ∨ bad = .reserved) →
    s.presents (.start :: (vs.map Instr.data ++ [bad])) rest →
      runSteps (vs.length + 2) s = .next
        { s with phase := .opened, acc := checksum vs, hasData := true, fault := true,
                 faultCause := (if bad = .start then .protocol else .illegalCmd),
                 wire := s.wire ++ preamble ++ pairs vs, port := rest }

/-- R78: the pseudo-instruction SEND: its words, and what they append. -/
def Obligations.SendPseudoInstruction : Prop :=
  ∀ ns : List Nat, (∀ n ∈ ns, n ≤ 255) →
    assembleLine (.send ns) = .ok (0x100#10 :: (ns.map (BitVec.ofNat 10) ++ [0x200#10])) ∧
    ∀ (s : State) (ws : List CommandWord) (rest : List Input),
      assembleLine (.send ns) = .ok ws → s.port = commandInputs ws ++ rest →
      s.fault = false → s.phase = .idle →
        (ns ≠ [] ∨ s.emptyPolicy = .accept →
          ∃ t, runSteps ws.length s = .next t ∧ t.wire = s.wire ++ encodePacket (ns.map (BitVec.ofNat 8)) ∧
            t.phase = .idle ∧ t.fault = false) ∧
        (ns = [] → s.emptyPolicy = .reject →
          ∃ t, runSteps ws.length s = .next t ∧ t.wire = s.wire ∧ t.fault = true)

/-- 70_reset R158: from an idle block without a fault, under ACCEPT, a sequence of START, DATA and END ends without a fault
exactly when it follows the packet protocol, and any other order ends in `Fault(PROTOCOL)`. -/
def Obligations.OnlyTheProtocolOrderRunsWithoutFault : Prop :=
  ∀ (s t : State) (cs : List Instr) (rest : List Input),
    s.fault = false → s.phase = .idle → s.emptyPolicy = .accept → .reserved ∉ cs → s.presents cs rest →
    runSteps cs.length s = .next t →
      (t.fault = false ↔ FollowsProtocol cs) ∧ (t.fault = true → t.faultCause = .protocol)

/-- 70_reset R155, with R111, for a run of commands alone: where it ends well, the commands were whole packets and `wire`
grew by exactly their encodings. -/
def Obligations.CommandRunThatEndsWellEmitsWholePackets : Prop :=
  ∀ (s t : State) (cs : List Instr) (rest : List Input),
    s.fault = false → s.phase = .idle → s.presents cs rest → runSteps cs.length s = .next t → t.endsWell = true →
      ∃ packets : List (List Byte),
        cs = packets.flatMap sendCommands ∧ t.wire = s.wire ++ packets.flatMap encodePacket ∧
        (s.emptyPolicy = .reject → ∀ vs ∈ packets, vs ≠ [])

/-- 70_reset R155, R151, R152: for any inputs, resets and cut commands among them: where a run that starts idle and without
a fault ends well, `wire` grew by whole packets and truncated ones, and there are at most as many truncated ones as resets. -/
def Obligations.RunThatEndsWellEmitsPacketsAndCutPackets : Prop :=
  ∀ (s t : State) (inputs rest : List Input),
    s.fault = false → s.phase = .idle → s.port = inputs ++ rest →
    runSteps inputs.length s = .next t → t.endsWell = true →
      ∃ segs : List WireSegment,
        t.wire = s.wire ++ segs.flatMap WireSegment.bytes ∧
        segs.countP WireSegment.isTruncated ≤ inputs.countP Input.isReset

/-! ## The assembler -/

/-- 30_encoding R77: a program of well-formed lines without `.word` assembles, its words decode to the lines' commands in
order, and none of them is of the reserved kind. -/
def Obligations.AssembledProgramDecodesToItsCommands : Prop :=
  ∀ lines : List AsmLine, (∀ l ∈ lines, l.wellFormed = true) → (∀ l ∈ lines, ∀ n, l ≠ .rawWord n) →
    ∃ ws, assemble lines = .ok ws ∧
      ws.map decode = lines.flatMap (fun l =>
        match l with
        | .start => [Instr.start]
        | .data n => [.data (BitVec.ofNat 8 n)]
        | .endLine => [.endCmd]
        | .send ns => sendCommands (ns.map (BitVec.ofNat 8))
        | .rawWord _ => []) ∧
      ∀ w ∈ ws, decode w ≠ .reserved

/-- 30_encoding R77, R128: after any well-formed lines, a DATA line with an operand above 255, or a SEND line whose first
operand above 255 is `n`, refuses the whole program with that operand: no word comes out.  (That this error is the one
reported, whatever the lines and operands after it hold, is log entry 9's, DESIGN CHOICE.) -/
def Obligations.AssemblerRefusesOutOfRangeOperands : Prop :=
  ∀ (before after : List AsmLine) (n : Nat), 255 < n → (∀ l ∈ before, l.wellFormed = true) →
    assemble (before ++ .data n :: after) = .error (.operandOutOfRange n) ∧
    ∀ good more : List Nat, (∀ m ∈ good, m ≤ 255) →
      assemble (before ++ .send (good ++ n :: more) :: after) = .error (.operandOutOfRange n)

/-- 30_encoding R77, R128, at the text: whatever readable lines come before, a token that is not two hex digits (with an
optional `0x`) where DATA's operand stands, or as the first such operand of SEND, refuses the whole text with that token; and
what a DATA or SEND line of text is read as has operands up to 255 only.  (White space: log entry 8.  That this error is the
one reported, whatever errors of range the lead holds and whatever comes after: log entry 9.  Both DESIGN CHOICE.) -/
def Obligations.MalformedOperandTokensRefuseTheText : Prop :=
  (∀ lead token tail : List Char, ReadableLead lead → isOneToken token = true → isOperandToken token = false →
    (EndsOperand tail →
      assembleText (lead ++ ['D', 'A', 'T', 'A', ' '] ++ token ++ tail) = .error (.malformedOperand token)) ∧
    (EndsOperand tail ∨ (∃ rest, tail = ' ' :: rest) → ∀ good : List (Char × Char),
      (∀ d ∈ good, isHexChar d.1 = true ∧ isHexChar d.2 = true) →
      assembleText (lead ++ ['S', 'E', 'N', 'D', ' '] ++ good.flatMap (fun d => [d.1, d.2, ' ']) ++ token ++ tail) =
        .error (.malformedOperand token))) ∧
  (∀ cs : List Char,
    (∀ n, parseLine cs = .ok (some (.data n)) → n ≤ 255) ∧
    (∀ ns, parseLine cs = .ok (some (.send ns)) → ∀ n ∈ ns, n ≤ 255))

/-- 30_encoding R77: the text `DATA <hh>` is DATA's line and assembles to the word `0x000 | hh`, for the digits at the indexes
`i` and `j` of the hex digits in either case, with or without `0x`, alone on its line or with a comment after it; and a hex
digit is one of those characters, of that value, and no other.  (White space before a comment: log entry 8.) -/
def Obligations.DataLineTextIsRead : Prop :=
  ['0', '1', '2', '3', '4', '5', '6', '7', '8', '9'].map hexDigit = (List.range 10).map some ∧
  ['A', 'B', 'C', 'D', 'E', 'F'].map hexDigit = [some 10, some 11, some 12, some 13, some 14, some 15] ∧
  ['a', 'b', 'c', 'd', 'e', 'f'].map hexDigit = [some 10, some 11, some 12, some 13, some 14, some 15] ∧
  (∀ c : Char, isHexChar c = false → hexDigit c = none) ∧
  ∀ (i j : Nat) (a b : Char) (zx tail : List Char),
    (upperHexDigits[i]? = some a ∨ lowerHexDigits[i]? = some a) →
    (upperHexDigits[j]? = some b ∨ lowerHexDigits[j]? = some b) →
    (zx = [] ∨ zx = ['0', 'x']) →
    (tail = [] ∨ (∃ comment, tail = ';' :: comment) ∨ ∃ comment, tail = ' ' :: ';' :: comment) → '\n' ∉ tail →
      parseLine (['D', 'A', 'T', 'A', ' '] ++ zx ++ [a, b] ++ tail) = .ok (some (.data (16 * i + j))) ∧
      assembleText (['D', 'A', 'T', 'A', ' '] ++ zx ++ [a, b] ++ tail) = .ok [0x000#10 ||| BitVec.ofNat 10 (16 * i + j)]
end

