-- ==== Sys2Proof/Laws/Assembler.lean ====
section
/-! SUPPORT. The small laws of the assembler's reader and of its operand words. -/

namespace Sys2Proof.Machine

/-- A newline ends a line. -/
theorem linesFrom_append_newline (cur text rest : List Char) :
    linesFrom cur (text ++ '\n' :: rest) = linesFrom cur text ++ linesFrom [] rest := by
  induction text generalizing cur with
  | nil => simp [linesFrom]
  | cons c cs ih => simp only [List.cons_append, linesFrom]; split <;> simp [ih]

/-- The first line of a text ends at its first newline. -/
theorem linesFrom_first (cur text : List Char) :
    ∃ rest, linesFrom cur text = (cur.reverse ++ text.takeWhile (fun c => c != '\n')) :: rest := by
  induction text generalizing cur with
  | nil => exact ⟨[], by simp [linesFrom]⟩
  | cons c cs ih =>
    by_cases h : c = '\n'
    · subst h
      exact ⟨linesFrom [] cs, by simp [linesFrom]⟩
    · obtain ⟨rest, hr⟩ := ih (c :: cur)
      exact ⟨rest, by simp [linesFrom, h, hr]⟩

/-- Characters that are not white space join the token being read. -/
theorem tokensFrom_word (cur token rest : List Char) (h : ∀ c ∈ token, isBlank c = false) :
    tokensFrom cur (token ++ rest) = tokensFrom (token.reverse ++ cur) rest := by
  induction token generalizing cur with
  | nil => rfl
  | cons c cs ih =>
    simp only [List.mem_cons, forall_eq_or_imp] at h
    simp [tokensFrom, h.1, ih _ h.2]

/-- A line that the reader refuses refuses the text, whatever readable lines come before it. -/
theorem parseLines_append_error {before after : List (List Char)} {lines : List AsmLine} {e : AsmError}
    (hb : parseLines before = .ok lines) (ha : parseLines after = .error e) :
    parseLines (before ++ after) = .error e := by
  induction before generalizing lines with
  | nil => exact ha
  | cons c cs ih =>
    simp only [parseLines, List.cons_append] at hb ⊢
    split at hb
    · simp at hb
    · split at hb
      · simp at hb
      · rename_i _ _ _ h
        simp [ih h]

/-- The words of operands that are all in range. -/
theorem dataWords_in_range (ns : List Nat) (h : ∀ n ∈ ns, n ≤ 255) :
    dataWords ns = .ok (ns.map fun n => encode (.data (BitVec.ofNat 8 n))) := by
  induction ns with
  | nil => rfl
  | cons n ns ih =>
    simp only [List.mem_cons, forall_eq_or_imp] at h
    simp [dataWords, dataWord, opcodeInRange, h.1, ih h.2]

/-- A well-formed line assembles. -/
theorem assembleLine_of_wellFormed {l : AsmLine} (h : l.wellFormed = true) : ∃ ws, assembleLine l = .ok ws := by
  cases l with
  | start => exact ⟨_, rfl⟩
  | endLine => exact ⟨_, rfl⟩
  | data n => exact ⟨_, dataWords_in_range [n] (by simpa [AsmLine.wellFormed, opcodeInRange] using h)⟩
  | send ns =>
    have hn : ∀ n ∈ ns, n ≤ 255 := by simpa [AsmLine.wellFormed, opcodeInRange] using h
    exact ⟨_, by simp only [assembleLine, dataWords_in_range ns hn]; rfl⟩
  | rawWord n => exact ⟨_, by simp only [assembleLine, show commandWordInRange n = true from h]; rfl⟩

end Sys2Proof.Machine
end

