-- ==== Sys2Proof/Laws/Packet.lean ====
section
/-! SUPPORT. The small laws of the pure functions. -/

namespace Sys2Proof.Machine

@[simp] theorem preamble_length : preamble.length = 3 := rfl

@[simp] theorem pair_length (v : Byte) : (pair v).length = 2 := rfl

@[simp] theorem pairs_nil : pairs [] = [] := rfl

@[simp] theorem pairs_cons (v : Byte) (vs : List Byte) : pairs (v :: vs) = v :: complement v :: pairs vs := rfl

@[simp] theorem pairs_append (us vs : List Byte) : pairs (us ++ vs) = pairs us ++ pairs vs := by
  simp [pairs]

@[simp] theorem pairs_length (vs : List Byte) : (pairs vs).length = 2 * vs.length := by
  induction vs with
  | nil => rfl
  | cons v vs ih => simp [ih]; omega

@[simp] theorem checksum_nil : checksum [] = 0 := rfl

@[simp] theorem opcodeSum_nil : opcodeSum [] = 0 := rfl

@[simp] theorem opcodeSum_cons (v : Byte) (vs : List Byte) : opcodeSum (v :: vs) = v.toNat + opcodeSum vs := by
  simp [opcodeSum]

@[simp] theorem opcodeSum_append (us vs : List Byte) : opcodeSum (us ++ vs) = opcodeSum us + opcodeSum vs := by
  simp [opcodeSum]

/-- Taking one more opcode adds it to the checksum, with a wrap at 8 bits: what DATA does to `acc` (R22). -/
theorem checksum_snoc (us : List Byte) (v : Byte) : checksum (us ++ [v]) = checksum us + v := by
  apply BitVec.eq_of_toNat_eq
  simp [checksum, BitVec.toNat_ofNat, BitVec.toNat_add]

/-- The loop of `encode` appends the pairs and adds the sum. -/
theorem encodeLoop_eq (vs out : List Byte) (a : Nat) :
    encodeLoop vs out a = (out ++ pairs vs, a + opcodeSum vs) := by
  induction vs generalizing out a with
  | nil => simp [encodeLoop]
  | cons v vs ih => simp [encodeLoop, ih]; omega

end Sys2Proof.Machine
end

