-- ==== Sys2Proof/Laws/State.lean ====
section
/-! SUPPORT. One lemma per field per update of State. -/

namespace Sys2Proof.Machine

section
variable (bs : List Byte) (v : Byte) (c : Cause) (s : State)

@[simp] theorem emit_phase : (emit bs s).phase = s.phase := rfl
@[simp] theorem emit_acc : (emit bs s).acc = s.acc := rfl
@[simp] theorem emit_hasData : (emit bs s).hasData = s.hasData := rfl
@[simp] theorem emit_fault : (emit bs s).fault = s.fault := rfl
@[simp] theorem emit_faultCause : (emit bs s).faultCause = s.faultCause := rfl
@[simp] theorem emit_wire : (emit bs s).wire = s.wire ++ bs := rfl
@[simp] theorem emit_emptyPolicy : (emit bs s).emptyPolicy = s.emptyPolicy := rfl
@[simp] theorem emit_port : (emit bs s).port = s.port := rfl

@[simp] theorem raiseFault_phase : (raiseFault c s).phase = s.phase := rfl
@[simp] theorem raiseFault_acc : (raiseFault c s).acc = s.acc := rfl
@[simp] theorem raiseFault_hasData : (raiseFault c s).hasData = s.hasData := rfl
@[simp] theorem raiseFault_fault : (raiseFault c s).fault = true := rfl
@[simp] theorem raiseFault_faultCause : (raiseFault c s).faultCause = c := rfl
@[simp] theorem raiseFault_wire : (raiseFault c s).wire = s.wire := rfl
@[simp] theorem raiseFault_emptyPolicy : (raiseFault c s).emptyPolicy = s.emptyPolicy := rfl
@[simp] theorem raiseFault_port : (raiseFault c s).port = s.port := rfl

@[simp] theorem resetBlock_phase : (resetBlock s).phase = .idle := rfl
@[simp] theorem resetBlock_acc : (resetBlock s).acc = 0 := rfl
@[simp] theorem resetBlock_hasData : (resetBlock s).hasData = false := rfl
@[simp] theorem resetBlock_fault : (resetBlock s).fault = false := rfl
@[simp] theorem resetBlock_faultCause : (resetBlock s).faultCause = .noCause := rfl
@[simp] theorem resetBlock_wire : (resetBlock s).wire = s.wire := rfl
@[simp] theorem resetBlock_emptyPolicy : (resetBlock s).emptyPolicy = s.emptyPolicy := rfl
@[simp] theorem resetBlock_port : (resetBlock s).port = s.port := rfl

@[simp] theorem openPacket_phase : (openPacket s).phase = .opened := rfl
@[simp] theorem openPacket_acc : (openPacket s).acc = 0 := rfl
@[simp] theorem openPacket_hasData : (openPacket s).hasData = false := rfl
@[simp] theorem openPacket_fault : (openPacket s).fault = s.fault := rfl
@[simp] theorem openPacket_faultCause : (openPacket s).faultCause = s.faultCause := rfl
@[simp] theorem openPacket_wire : (openPacket s).wire = s.wire := rfl
@[simp] theorem openPacket_emptyPolicy : (openPacket s).emptyPolicy = s.emptyPolicy := rfl
@[simp] theorem openPacket_port : (openPacket s).port = s.port := rfl

@[simp] theorem accumulate_phase : (accumulate v s).phase = s.phase := rfl
@[simp] theorem accumulate_acc : (accumulate v s).acc = s.acc + v := rfl
@[simp] theorem accumulate_hasData : (accumulate v s).hasData = true := rfl
@[simp] theorem accumulate_fault : (accumulate v s).fault = s.fault := rfl
@[simp] theorem accumulate_faultCause : (accumulate v s).faultCause = s.faultCause := rfl
@[simp] theorem accumulate_wire : (accumulate v s).wire = s.wire := rfl
@[simp] theorem accumulate_emptyPolicy : (accumulate v s).emptyPolicy = s.emptyPolicy := rfl
@[simp] theorem accumulate_port : (accumulate v s).port = s.port := rfl

@[simp] theorem closePacket_phase : (closePacket s).phase = .idle := rfl
@[simp] theorem closePacket_acc : (closePacket s).acc = s.acc := rfl
@[simp] theorem closePacket_hasData : (closePacket s).hasData = false := rfl
@[simp] theorem closePacket_fault : (closePacket s).fault = s.fault := rfl
@[simp] theorem closePacket_faultCause : (closePacket s).faultCause = s.faultCause := rfl
@[simp] theorem closePacket_wire : (closePacket s).wire = s.wire := rfl
@[simp] theorem closePacket_emptyPolicy : (closePacket s).emptyPolicy = s.emptyPolicy := rfl
@[simp] theorem closePacket_port : (closePacket s).port = s.port := rfl

end

end Sys2Proof.Machine
end

