-- ==== Sys2Proof/Laws/Step.lean ====
section
/-! SUPPORT. What one command, one input and one run can do, said once. -/

namespace Sys2Proof.Machine

/-- The fault gate has two outcomes. -/
theorem gate_cases {body : State → State} {s t : State} (h : gate body s = .next t) :
    (s.fault = true ∧ t = s) ∨ (s.fault = false ∧ t = body s) := by
  unfold gate at h
  cases hf : s.fault <;> simp [hf] at h <;> simp [h]

/-- When a command taken with `fault = 0` raises which fault (R125 to R127). -/
def Raises (i : Instr) (s : State) (c : Cause) : Prop :=
  (c = .illegalCmd ∧ i = .reserved) ∨
  (c = .protocol ∧ i = .start ∧ s.phase = .opened) ∨
  (c = .protocol ∧ s.phase = .idle ∧ (i = .endCmd ∨ ∃ v, i = .data v)) ∨
  (c = .empty ∧ i = .endCmd ∧ s.phase = .opened ∧ emptyRejected s = true)

theorem Raises.ne_noCause {i : Instr} {s : State} {c : Cause} (h : Raises i s c) : c ≠ .noCause := by
  rcases h with ⟨rfl, _⟩ | ⟨rfl, _⟩ | ⟨rfl, _⟩ | ⟨rfl, _⟩ <;> simp

/-- Everything a command can do: it is discarded, raises a fault, opens a packet, adds an opcode, or closes the packet. -/
theorem exec_cases {i : Instr} {s t : State} (h : exec i s = .next t) :
    (s.fault = true ∧ t = s) ∨
    (s.fault = false ∧ ∃ c, Raises i s c ∧ t = raiseFault c s) ∨
    (s.fault = false ∧ s.phase = .idle ∧ i = .start ∧ t = openPacket s) ∨
    (s.fault = false ∧ s.phase = .opened ∧ ∃ v, i = .data v ∧
      t = accumulate (dataOperand v) (emit (dataBytes v s) s)) ∨
    (s.fault = false ∧ s.phase = .opened ∧ i = .endCmd ∧ emptyRejected s = false ∧
      t = closePacket (emit (endBytes s) s)) := by
  cases i with
  | data v =>
    rcases gate_cases (body := dataEffect v) h with ⟨hf, rfl⟩ | ⟨hf, rfl⟩
    · exact .inl ⟨hf, rfl⟩
    · cases hp : s.phase with
      | idle =>
        exact .inr (.inl ⟨hf, .protocol, .inr (.inr (.inl ⟨rfl, hp, .inr ⟨v, rfl⟩⟩)), by simp [dataEffect, hp]⟩)
      | opened => exact .inr (.inr (.inr (.inl ⟨hf, rfl, v, rfl, by simp [dataEffect, hp]⟩)))
  | start =>
    rcases gate_cases (body := startEffect) h with ⟨hf, rfl⟩ | ⟨hf, rfl⟩
    · exact .inl ⟨hf, rfl⟩
    · cases hp : s.phase with
      | idle => exact .inr (.inr (.inl ⟨hf, rfl, rfl, by simp [startEffect, hp]⟩))
      | opened => exact .inr (.inl ⟨hf, .protocol, .inr (.inl ⟨rfl, rfl, hp⟩), by simp [startEffect, hp]⟩)
  | endCmd =>
    rcases gate_cases (body := endEffect) h with ⟨hf, rfl⟩ | ⟨hf, rfl⟩
    · exact .inl ⟨hf, rfl⟩
    · cases hp : s.phase with
      | idle =>
        exact .inr (.inl ⟨hf, .protocol, .inr (.inr (.inl ⟨rfl, hp, .inl rfl⟩)), by simp [endEffect, hp]⟩)
      | opened =>
        cases he : emptyRejected s with
        | false => exact .inr (.inr (.inr (.inr ⟨hf, rfl, rfl, rfl, by simp [endEffect, hp, he]⟩)))
        | true => exact .inr (.inl ⟨hf, .empty, .inr (.inr (.inr ⟨rfl, rfl, hp, he⟩)), by simp [endEffect, hp, he]⟩)
  | reserved =>
    rcases gate_cases (body := reservedEffect) h with ⟨hf, rfl⟩ | ⟨hf, rfl⟩
    · exact .inl ⟨hf, rfl⟩
    · exact .inr (.inl ⟨hf, .illegalCmd, .inl ⟨rfl, rfl⟩, rfl⟩)

/-- What the pending preamble is, by `has_data`. -/
@[simp] theorem pendingPreamble_of_data {s : State} (h : s.hasData = true) : pendingPreamble s = [] := by
  simp [pendingPreamble, h]

@[simp] theorem pendingPreamble_of_no_data {s : State} (h : s.hasData = false) : pendingPreamble s = preamble := by
  simp [pendingPreamble, h]

/-- A step with nothing presented. -/
theorem step_of_nil {s : State} (h : s.port = []) : step s = .next s := by
  simp [step, h, await]

/-- A step with an input presented. -/
theorem step_of_cons {s : State} {e : Input} {rest : List Input} (h : s.port = e :: rest) :
    step s = respond e { s with port := rest } := by
  simp [step, h]

@[simp] theorem runSteps_zero (s : State) : runSteps 0 s = .next s := rfl

theorem runSteps_succ {k : Nat} {s t : State} (h : step s = .next t) : runSteps (k + 1) s = runSteps k t := by
  have hc : Sys2Proof.core.step s = .next t := h
  show Host.Core.run Sys2Proof.core (k + 1) s = _
  simp only [Host.Core.run, hc]
  rfl

/-- A run is its first part, then its second. -/
theorem runSteps_add {j k : Nat} {s t : State} (h : runSteps j s = .next t) :
    runSteps (j + k) s = runSteps k t := by
  induction j generalizing s with
  | zero => simp at h; simp [h]
  | succ j ih =>
    cases hs : step s with
    | next u =>
      rw [runSteps_succ hs] at h
      rw [Nat.succ_add, runSteps_succ hs]
      exact ih h
    | fault r => exact nomatch r
    | refused r =>
      have hc : Sys2Proof.core.step s = .refused r := hs
      have : runSteps (j + 1) s = .refused r := by
        show Host.Core.run Sys2Proof.core (j + 1) s = _
        simp only [Host.Core.run, hc]
        rfl
      rw [this] at h
      cases h

end Sys2Proof.Machine
end

