-- ==== Sys2Proof/Tests/Slice0.lean ====
section
/-! SUPPORT. Tests with results taken from spec/95_test_vectors and the rules' examples, the refusals of the well-formedness
checks, and for every statement with hypotheses a witness that meets them. -/

namespace Sys2Proof.Tests

open Sys2Proof Sys2Proof.Machine

/-- The state of a result, where there is one. -/
def after : Result → Option State
  | .next s => some s
  | .fault _ => none
  | .refused _ => none

/-- The state after `s` takes the word `w`. -/
def taking (w : Nat) (s : State) : Option State := after (step (s.withFetchWord 16 w))

/-- An open packet that has taken no opcode, after an earlier byte on `wire`. -/
def openEmpty : State :=
  { State.reset with phase := .opened, wire := [0x11] }

/-- The same in a block built with `REJECT`. -/
def emptyUnderReject : State := { openEmpty with emptyPolicy := .reject }

/-- An open packet that has taken the opcode `FF`. -/
def openData : State :=
  { State.reset with phase := .opened, acc := 0xFF, hasData := true, wire := [0x55, 0xFF, 0x00, 0xFF, 0x00] }

/-- A block that has faulted inside a packet. -/
def faulted : State := { openData with fault := true, faultCause := .illegalCmd }

/-! ## Decoding: words written out bit by bit from R61 (95_test_vectors 2.5) -/

theorem test_decode_data : decode 0b0001010001 = .data 0x51 := by decide
theorem test_decode_data_highest : decode 0b0011111111 = .data 0xFF := by decide
theorem test_decode_start : decode 0b0100000000 = .start := by decide
theorem test_decode_start_ignored_bits : decode 0b0110101011 = .start := by decide
theorem test_decode_end : decode 0b1000000000 = .endCmd := by decide
theorem test_decode_end_ignored_bits : decode 0b1011111111 = .endCmd := by decide
theorem test_decode_reserved : decode 0b1100000000 = .reserved := by decide
theorem test_decode_reserved_highest : decode 0b1111111111 = .reserved := by decide
theorem test_encode_words :
    encode (.data 0x51) = 0x051 ∧ encode .start = 0x100 ∧ encode .endCmd = 0x200 := by decide
theorem test_table_words :
    decodeTableWord 16 0x051 = some (.data 0x51) ∧ decodeTableWord 16 0x1AB = some .start ∧
    decodeTableWord 10 0x2FF = some .endCmd ∧ decodeTableWord 16 0x3FF = some .reserved := by decide

/-! ## The refusals of the checks -/

theorem test_opcode_above_255_refused : opcodeInRange 256 = false := by decide
theorem test_word_above_10_bits_refused : commandWordInRange 1024 = false := by decide
theorem test_number_above_10_bits_refused : decodeNumber 1024 = .error (.wordTooWide 1024) := by rfl
theorem test_table_word_above_10_bits_refused : decodeTableWord 16 0x400 = none := by decide
theorem test_ill_formed_lines_refused :
    (AsmLine.data 256).wellFormed = false ∧ (AsmLine.send [1, 256]).wellFormed = false ∧
    (AsmLine.rawWord 1024).wellFormed = false := by decide

/-! ## One step of each command -/

/-- R100's example. -/
theorem test_start_from_reset :
    (taking 0x100 State.reset).map (fun t => (t.phase, t.acc, t.hasData, t.wire)) = some (.opened, 0x00, false, []) := by
  decide
/-- V10. -/
theorem test_start_while_open : (taking 0x100 openEmpty).map status = some 0x0015 := by decide
/-- R101's example. -/
theorem test_first_data :
    (taking 0x051 openEmpty).map (fun t => (t.wire, t.acc, t.hasData)) =
      some ([0x11, 0x55, 0xFF, 0x00, 0x51, 0xAE], 0x51, true) := by decide
/-- V6: `acc` wraps. -/
theorem test_later_data_wraps :
    (taking 0x001 openData).map (fun t => (t.wire, t.acc)) =
      some ([0x55, 0xFF, 0x00, 0xFF, 0x00, 0x01, 0xFE], 0x00) := by decide
/-- W4, and `acc` keeps the checksum (R102). -/
theorem test_end_of_packet :
    (taking 0x2FF openData).map (fun t => (t.wire, status t)) =
      some ([0x55, 0xFF, 0x00, 0xFF, 0x00, 0xFF, 0x00], 0xFF00) := by decide
/-- V16. -/
theorem test_end_of_empty_packet_under_reject :
    (taking 0x200 emptyUnderReject).map (fun t => (t.wire, status t)) =
      some ([0x11], 0x001D) := by decide
/-- V11. -/
theorem test_reserved_from_reset : (taking 0x300 State.reset).map status = some 0x000C := by decide
/-- V12's last step, with `acc = FF`. -/
theorem test_reserved_inside_packet :
    (taking 0x3FF openData).map (fun t => (t.wire, status t)) =
      some ([0x55, 0xFF, 0x00, 0xFF, 0x00], 0xFF0F) := by decide
/-- V13: a faulted block discards. -/
theorem test_faulted_block_discards : taking 0x200 faulted = some faulted := by decide
/-- V18: DATA(51) cut by reset after 2 bytes. -/
theorem test_reset_cuts_a_command :
    (after (step { State.reset with phase := .opened, port := [.commandCutByReset 0x051 2] })).map
      (fun t => (t.wire, status t)) = some ([0x55, 0xFF], 0x0000) := by decide

/-! ## The pure functions: DOC's scenarios -/

theorem test_encode_scenarios :
    encodePacket [0x51, 0x01] = [0x55, 0xFF, 0x00, 0x51, 0xAE, 0x01, 0xFE, 0x52, 0xAD] ∧
    encodePacket [0x21, 0x81] = [0x55, 0xFF, 0x00, 0x21, 0xDE, 0x81, 0x7E, 0xA2, 0x5D] ∧
    encodePacket [0x10, 0x10] = [0x55, 0xFF, 0x00, 0x10, 0xEF, 0x10, 0xEF, 0x20, 0xDF] ∧
    encodePacket [0xFF] = [0x55, 0xFF, 0x00, 0xFF, 0x00, 0xFF, 0x00] ∧
    encodePacket [] = [0x55, 0xFF, 0x00, 0x00, 0xFF] := by decide
theorem test_checksum_overflow : checksum [0xFF, 0xFF, 0xFF] = 0xFD ∧ acc8 [0xFF, 0xFF, 0xFF] = 0xFD := by decide
/-- 95_test_vectors 2.4. -/
theorem test_encode_checked :
    encodeChecked [256] .accept = .error (.invalidOpcode 0) ∧
    encodeChecked [1, 300, 999] .reject = .error (.invalidOpcode 1) ∧
    encodeChecked [255] .reject = .ok [0x55, 0xFF, 0x00, 0xFF, 0x00, 0xFF, 0x00] ∧
    encodeChecked [] .accept = .ok [0x55, 0xFF, 0x00, 0x00, 0xFF] ∧
    encodeChecked [] .reject = .error .emptySequence := ⟨rfl, rfl, rfl, rfl, rfl⟩

/-! ## The assembler -/

/-- Program P1, with comments, prefixes and both cases (R77). -/
theorem test_assemble_text :
    assembleText ['S', 'T', 'A', 'R', 'T', ' ', ';', 'x', '\n', 'D', 'A', 'T', 'A', ' ', '0', 'x', '5', '1', '\n',
      'D', 'A', 'T', 'A', '\t', '0', '1', '\n', 'E', 'N', 'D'] = .ok [0x100, 0x051, 0x001, 0x200] := by rfl
/-- R78, R77: SEND, and a raw reserved word. -/
theorem test_assemble_send_and_word :
    assembleText ['S', 'E', 'N', 'D', ' ', 'a', 'A', ' ', 'F', 'f', '\n', '.', 'w', 'o', 'r', 'd', ' ', '0', 'x', '3',
      '0', '5'] = .ok [0x100, 0x0AA, 0x0FF, 0x200, 0x305] := by rfl
/-- R77: an operand outside two hex digits is refused. -/
theorem test_malformed_operand_refused :
    assembleText ['D', 'A', 'T', 'A', ' ', '1', '0', '0'] = .error (.malformedOperand ['1', '0', '0']) ∧
    assembleText ['D', 'A', 'T', 'A', ' ', 'g', '0'] = .error (.malformedOperand ['g', '0']) := ⟨rfl, rfl⟩
/-- R77: a plain line, digits in either case. -/
theorem test_plain_data_line :
    assembleText ['D', 'A', 'T', 'A', ' ', 'A', 'e'] = .ok [0x0AE] := by rfl

/-! ## Witnesses: encodings and the step -/

theorem witness_DecoderFollowsKindField :
    (0b00#2 ++ 0xFF#8 : CommandWord) = 0x0FF ∧ (0b01#2 ++ 0xAB#8 : CommandWord) = 0x1AB ∧
    (0b10#2 ++ 0x00#8 : CommandWord) = 0x200 ∧ (0b11#2 ++ 0xFF#8 : CommandWord) = 0x3FF := by decide
theorem witness_DecodeOfEncodeAndEncodeOfDecode :
    (Instr.data 0xFF).wellFormed = true ∧ Instr.reserved.wellFormed = true ∧
    decode 0x0FF = .data 0xFF ∧ decode 0x1AB = .start := by decide
theorem witness_StepRunsTheDecodedCommand :
    { openData with port := [.command 0x0FF, .reset] }.port = Input.command 0x0FF :: [.reset] ∧
    decode 0x0FF = .data 0xFF ∧ (Instr.data 0xFF).wellFormed = true := by decide
theorem witness_PlacedWordIsTheNextCommand :
    decodeTableWord 16 0x3FF = some .reserved ∧ decodeTableWord 10 0x000 = some (.data 0x00) := by decide
theorem witness_StepWithoutInputWaits : State.reset.port = [] := by decide

/-! ## Witnesses: the commands, a state for each clause -/

theorem witness_StartOpensAPacket :
    ((0x1AB : CommandWord) &&& 0x300 = 0x100) ∧ faulted.fault = true ∧
    (openData.fault = false ∧ openData.phase = .opened) ∧
    (State.reset.fault = false ∧ State.reset.phase = .idle) := by decide
theorem witness_DataAddsOneOpcode :
    faulted.fault = true ∧ (State.reset.fault = false ∧ State.reset.phase = .idle) ∧
    (openEmpty.fault = false ∧ openEmpty.phase = .opened ∧ openEmpty.hasData = false) ∧
    (openData.fault = false ∧ openData.phase = .opened ∧ openData.hasData = true) := by decide
theorem witness_EndClosesThePacket :
    ((0x2FF : CommandWord) &&& 0x300 = 0x200) ∧
    faulted.fault = true ∧ (State.reset.fault = false ∧ State.reset.phase = .idle) ∧
    (openData.fault = false ∧ openData.phase = .opened ∧ openData.hasData = true) ∧
    (openEmpty.fault = false ∧ openEmpty.phase = .opened ∧ openEmpty.hasData = false ∧
      openEmpty.emptyPolicy = .accept) ∧
    (emptyUnderReject.fault = false ∧ emptyUnderReject.phase = .opened ∧ emptyUnderReject.hasData = false ∧
      emptyUnderReject.emptyPolicy = .reject) := by decide
theorem witness_ReservedKindFaults :
    ((0x3FF : CommandWord) &&& 0x300 = 0x300) ∧ faulted.fault = true ∧ openData.fault = false := by decide

/-- An idle block, without a fault, to which the words `ws` and then `rest` are presented. -/
def offered (p : EmptyPolicy) (ws : List CommandWord) (rest : List Input) : State :=
  { State.reset with acc := 0x99, emptyPolicy := p, port := commandInputs ws ++ rest }

/-- START (with ignored bits set), DATA 80, DATA 80, END. -/
def twoOpcodes : List CommandWord := [0x1AB, 0x080, 0x080, 0x2FF]

/-- What every statement about a command sequence asks of the block before it. -/
theorem offered_idle (p : EmptyPolicy) (ws : List CommandWord) (rest : List Input) :
    (offered p ws rest).fault = false ∧ (offered p ws rest).phase = .idle := ⟨rfl, rfl⟩

theorem witness_EmptyPacketByPolicy :
    (offered .accept [0x100, 0x200] []).fault = false ∧ (offered .accept [0x100, 0x200] []).phase = .idle ∧
    (offered .accept [0x100, 0x200] []).presents [.start, .endCmd] [] ∧
    (offered .accept [0x100, 0x200] []).emptyPolicy = .accept ∧
    (offered .reject [0x1FF, 0x2FF] [.reset]).presents [.start, .endCmd] [.reset] ∧
    (offered .reject [0x1FF, 0x2FF] [.reset]).emptyPolicy = .reject :=
  ⟨rfl, rfl, ⟨[0x100, 0x200], rfl, by decide⟩, rfl, ⟨[0x1FF, 0x2FF], rfl, by decide⟩, rfl⟩

theorem openEmpty_inv : openEmpty.Inv :=
  ⟨⟨by decide, by decide, by decide⟩, fun _ => ⟨[0x11], [], rfl, rfl, rfl⟩⟩

theorem witness_BytesAppendedPerCommand :
    (∃ t, exec .endCmd faulted = .next t ∧ faulted.fault = true) ∧
    (∃ t, exec .endCmd State.reset = .next t ∧ t.fault = true) ∧
    (∃ t, exec .start State.reset = .next t ∧ State.reset.fault = false ∧ t.fault = false) ∧
    (∃ t, exec (.data 0xFF) openEmpty = .next t ∧ t.fault = false ∧ openEmpty.hasData = false) ∧
    (∃ t, exec (.data 0x00) openData = .next t ∧ t.fault = false ∧ openData.hasData = true) ∧
    (∃ t, exec .endCmd openData = .next t ∧ t.fault = false) ∧
    (∃ t, exec .endCmd openEmpty = .next t ∧ t.fault = false ∧ openEmpty.Inv) :=
  ⟨⟨_, rfl, rfl⟩, ⟨_, rfl, rfl⟩, ⟨_, rfl, rfl, rfl⟩, ⟨_, rfl, rfl, rfl⟩, ⟨_, rfl, rfl, rfl⟩, ⟨_, rfl, rfl⟩,
    ⟨_, rfl, rfl, openEmpty_inv⟩⟩
theorem witness_FrameOfCommandsThatEmitNothing :
    (∃ t, exec .start State.reset = .next t ∧ State.reset.phase = .idle) ∧
    (∃ t, exec .start openData = .next t ∧ openData.phase = .opened) ∧
    (∃ t, exec .reserved openData = .next t ∧ t.fault = true) :=
  ⟨⟨_, rfl, rfl⟩, ⟨_, rfl, rfl⟩, ⟨_, rfl, rfl⟩⟩
theorem witness_FrameOfCommandsThatEmit :
    (∃ t, exec (.data 0x01) openData = .next t ∧ 4 < openData.wire.length ∧ t.fault = openData.fault) ∧
    (∃ t, exec .endCmd openEmpty = .next t ∧ openEmpty.phase = .opened ∧ t.fault = openEmpty.fault) :=
  ⟨⟨_, rfl, by decide, rfl⟩, ⟨_, rfl, rfl, rfl⟩⟩
theorem witness_RegisterWritesOfEachCommand :
    (∃ t, exec .endCmd State.reset = .next t ∧ t.fault = true) ∧
    (∃ t, exec .start State.reset = .next t ∧ t.fault = false) ∧
    (∃ t, exec (.data 0xFF) openData = .next t ∧ t.fault = false) ∧
    (∃ t, exec .endCmd openData = .next t ∧ t.fault = false) :=
  ⟨⟨_, rfl, rfl⟩, ⟨_, rfl, rfl⟩, ⟨_, rfl, rfl⟩, ⟨_, rfl, rfl⟩⟩
theorem witness_TwoEqualDataCommandsAddTwice :
    openData.fault = false ∧ openData.phase = .opened ∧ openData.hasData = true := by decide

/-! ## Witnesses: faults -/

theorem witness_FaultEntryIsPrecise : ∃ t, exec .start openData = .next t ∧ openData.fault = false ∧ t.fault = true :=
  ⟨_, rfl, rfl, rfl⟩
theorem witness_FaultGateDiscardsEveryWord :
    { faulted with port := [.command 0x3FF] }.fault = true ∧
    { faulted with port := [.command 0x3FF] }.port = Input.command 0x3FF :: [] := by decide
theorem witness_FaultIsStickyUntilReset :
    { faulted with port := [.command 0x100, .command 0x300] }.port = commandInputs [0x100, 0x300] ++ [] ∧
    { faulted with port := [.command 0x200, .reset] }.port = commandInputs [0x200] ++ .reset :: [] ∧
    faulted.fault = true := by decide
theorem witness_CauseIsWrittenOnlyOnFaultEntry :
    (∃ t, exec .reserved State.reset = .next t ∧ t.faultCause ≠ State.reset.faultCause) ∧
    (∃ t, exec (.data 0x00) State.reset = .next t ∧ t.fault ≠ State.reset.fault) :=
  ⟨⟨_, rfl, by decide⟩, ⟨_, rfl, by decide⟩⟩
theorem witness_IllegalCmdRaisedExactly :
    ∃ t, step { openData with port := [.command 0x300] } = .next t ∧ openData.fault = false ∧
      t.fault = true ∧ t.faultCause = .illegalCmd := ⟨_, rfl, rfl, rfl, rfl⟩
theorem witness_ProtocolRaisedExactly :
    (∃ t, exec .start openEmpty = .next t ∧ t.faultCause = .protocol) ∧
    (∃ t, exec (.data 0xFF) State.reset = .next t ∧ t.faultCause = .protocol) ∧
    (∃ t, exec .endCmd State.reset = .next t ∧ t.faultCause = .protocol) ∧
    (∃ t, exec .start State.reset = .next t ∧ State.reset.fault = false ∧ t.fault = false) :=
  ⟨⟨_, rfl, rfl⟩, ⟨_, rfl, rfl⟩, ⟨_, rfl, rfl⟩, ⟨_, rfl, rfl, rfl⟩⟩
theorem witness_EmptyRaisedExactly :
    (∃ t, exec .endCmd emptyUnderReject = .next t ∧ t.faultCause = .empty) ∧
    (∃ t, exec .endCmd openEmpty = .next t ∧ openEmpty.fault = false ∧ t.fault = false) :=
  ⟨⟨_, rfl, rfl⟩, ⟨_, rfl, rfl, rfl⟩⟩
theorem witness_FaultPriorityOrder :
    faulted.fault = true ∧ State.reset.fault = false ∧
    (Instr.start = .start ↔ openEmpty.phase = .opened) ∧ (Instr.data 0x00 = .start ↔ State.reset.phase = .opened) ∧
    ¬ (Instr.endCmd = .start ↔ emptyUnderReject.phase = .opened) ∧ emptyUnderReject.fault = false ∧
    emptyUnderReject.hasData = false ∧ emptyUnderReject.emptyPolicy = .reject ∧
    ¬ (Instr.endCmd = .start ↔ openEmpty.phase = .opened) ∧ openEmpty.emptyPolicy ≠ .reject := by decide

/-! ## Witnesses: the status port, reset, runs and invariants -/

theorem witness_StatusDeterminesTheRegisters :
    status openEmpty = status { openEmpty with wire := [] } ∧
    openEmpty.emptyPolicy = { openEmpty with wire := [] }.emptyPolicy ∧
    (∃ t, exec (.data 0x01) openEmpty = .next t) ∧ ∃ t, exec (.data 0x01) { openEmpty with wire := [] } = .next t :=
  ⟨by decide, rfl, ⟨_, rfl⟩, ⟨_, rfl⟩⟩
theorem witness_EmptyPolicyIsFixedAndUnseen : ∃ t, runSteps 1 (offered .reject [0x100] []) = .next t := ⟨_, rfl⟩
theorem witness_ResetValues : { faulted with port := [.reset] }.port = Input.reset :: [] := by decide
theorem witness_ResetIsTheOnlyWayOut :
    (∃ t, step { faulted with port := [.command 0x200] } = .next t ∧ faulted.fault = true) ∧
    (∃ t, step { openData with port := [.command 0x200] } = .next t ∧ openData.phase = .opened ∧ t.phase = .idle) :=
  ⟨⟨_, rfl, rfl⟩, ⟨_, rfl, rfl, rfl⟩⟩
theorem witness_ResetInsideACommandKeepsAnyPrefix :
    { openEmpty with port := [.reset] }.port = Input.reset :: [] ∧
    ∃ t, exec (decode 0x051) { openEmpty with port := [] } = .next t ∧
      t.wire = openEmpty.wire ++ [0x55, 0xFF, 0x00, 0x51, 0xAE] ∧
      ([] <+: ([0x55, 0xFF, 0x00, 0x51, 0xAE] : List Byte)) ∧
      (([0x55, 0xFF, 0x00, 0x51, 0xAE] : List Byte) <+: [0x55, 0xFF, 0x00, 0x51, 0xAE]) ∧
      { openEmpty with port := [.commandCutByReset 0x051 5] }.port = Input.commandCutByReset 0x051 5 :: [] :=
  ⟨rfl, _, rfl, rfl, by decide, by decide, rfl⟩
theorem witness_ResetInsideAPacketLeavesItTruncated :
    (offered .reject [0x100, 0x0FF] [.reset]).fault = false ∧ (offered .reject [0x100, 0x0FF] [.reset]).phase = .idle ∧
    ([0xFF] : List Byte) ≠ [] ∧
    (offered .reject [0x100, 0x0FF] [.reset]).presents (.start :: [0xFF].map Instr.data) (.reset :: []) :=
  ⟨rfl, rfl, by decide, ⟨[0x100, 0x0FF], rfl, by decide⟩⟩
theorem witness_StepKeepsTheInvariant :
    ∃ t, { openEmpty with port := [.command 0x051] }.Inv ∧ step { openEmpty with port := [.command 0x051] } = .next t :=
  ⟨_, ⟨⟨openEmpty_inv.1.1, openEmpty_inv.1.2, openEmpty_inv.1.3⟩, openEmpty_inv.2⟩, rfl⟩
theorem witness_ReachableStatesMeetInvariants :
    ∃ t, runSteps 2 { State.reset with emptyPolicy := .reject, port := [.command 0x100, .commandCutByReset 0x051 2] } =
      .next t ∧ t.wire = [0x55, 0xFF] := ⟨_, rfl, rfl⟩
theorem witness_WireIsOnlyAppendedInOrder :
    ∃ t u, runSteps 1 { openEmpty with port := [.command 0x051, .command 0x200] } = .next t ∧
      runSteps 1 t = .next u ∧ u.wire = [0x11, 0x55, 0xFF, 0x00, 0x51, 0xAE, 0x51, 0xAE] := ⟨_, _, rfl, rfl, rfl⟩
theorem witness_CommandsDoNotReadTheirOutput : ∃ t, exec .endCmd openData = .next t := ⟨_, rfl⟩

/-! ## Witnesses: the pure functions -/

theorem witness_EncodeIsInjective : encodePacket [0xFF] = encodePacket [0xFF] := rfl
theorem witness_PacketLayoutByOffset : 1 < ([0x51, 0x01] : List Byte).length ∧ 2 ≤ ([0x51, 0x01] : List Byte).length := by
  decide
theorem witness_PreambleRecursExactlyAfterAA :
    ([0xAA, 0xFF] : List Byte)[0]? = some 0xAA ∧ ([0xAA, 0xFF] : List Byte)[0 + 1]? = some 0xFF ∧
    ([0x55, 0xFF, 0x00] <+: (encodePacket [0xAA, 0xFF]).drop 4) ∧
    ([0x55, 0xAA] : List Byte)[1]? = some 0xAA ∧ checksum [0x55, 0xAA] = 0xFF ∧
    ([0x55, 0xFF, 0x00] <+: (encodePacket [0x55, 0xAA]).drop 6) := by decide
theorem witness_EncodeCheckedResults :
    ([1, 256] : List Nat)[1]? = some 256 ∧ 255 < 256 ∧ ([1, 256] : List Nat)[0]? = some 1 ∧
    (∀ x ∈ ([0, 255] : List Nat), x ≤ 255) := by decide

/-! ## Witnesses: command sequences -/

theorem witness_AccumulatorHoldsTheSumOfTheOpenPacket :
    (offered .reject [0x100, 0x0FF, 0x001] []).fault = false ∧ (offered .reject [0x100, 0x0FF, 0x001] []).phase = .idle ∧
    (offered .reject [0x100, 0x0FF, 0x001] []).presents (.start :: [0xFF, 0x01].map Instr.data) [] ∧
    (offered .reject [0x100] []).presents (.start :: [].map Instr.data) [] :=
  ⟨rfl, rfl, ⟨[0x100, 0x0FF, 0x001], rfl, by decide⟩, ⟨[0x100], rfl, by decide⟩⟩
theorem witness_CommandSequenceRefinesEncode :
    (offered .reject twoOpcodes [.reset]).fault = false ∧ (offered .reject twoOpcodes [.reset]).phase = .idle ∧
    (offered .reject twoOpcodes [.reset]).presents (sendCommands [0x80, 0x80]) [.reset] ∧
    (offered .accept [0x100, 0x200] []).presents (sendCommands []) [] ∧
    (offered .accept [0x100, 0x200] []).emptyPolicy = .accept ∧
    (offered .reject [0x100, 0x200] []).presents (sendCommands []) [] ∧
    (offered .reject [0x100, 0x200] []).emptyPolicy = .reject :=
  ⟨rfl, rfl, ⟨twoOpcodes, rfl, by decide⟩, ⟨[0x100, 0x200], rfl, by decide⟩, rfl, ⟨[0x100, 0x200], rfl, by decide⟩, rfl⟩
theorem witness_BackToBackPacketsConcatenate :
    (∀ p ws, (offered p ws []).fault = false ∧ (offered p ws []).phase = .idle) ∧
    (offered .accept (twoOpcodes ++ [0x100, 0x200]) []).presents ([[0x80, 0x80], []].flatMap sendCommands) [] ∧
    (offered .accept (twoOpcodes ++ [0x100, 0x200]) []).emptyPolicy = .accept ∧
    (offered .reject (twoOpcodes ++ twoOpcodes) []).presents ([[0x80, 0x80], [0x80, 0x80]].flatMap sendCommands) [] ∧
    (∀ vs ∈ ([[0x80, 0x80], [0x80, 0x80]] : List (List Byte)), vs ≠ []) :=
  ⟨fun p ws => offered_idle p ws [], ⟨twoOpcodes ++ [0x100, 0x200], rfl, by decide⟩, rfl, ⟨twoOpcodes ++ twoOpcodes, rfl, by decide⟩, by decide⟩
theorem witness_FaultInsideAPacketLeavesItPartial :
    (∃ t, exec .reserved openData = .next t ∧ openData.fault = false ∧ openData.phase = .opened ∧
      openData.hasData = true) ∧
    (∀ ws, (offered .reject ws []).fault = false ∧ (offered .reject ws []).phase = .idle) ∧ ([0xAA] : List Byte) ≠ [] ∧
    (offered .reject [0x100, 0x0AA, 0x100] []).presents (.start :: ([0xAA].map Instr.data ++ [.start])) [] ∧
    (offered .reject [0x100, 0x0AA, 0x3FF] []).presents (.start :: ([0xAA].map Instr.data ++ [.reserved])) [] :=
  ⟨⟨_, rfl, rfl, rfl, rfl⟩, fun ws => offered_idle .reject ws [], by decide, ⟨[0x100, 0x0AA, 0x100], rfl, by decide⟩, ⟨[0x100, 0x0AA, 0x3FF], rfl, by decide⟩⟩
theorem witness_SendPseudoInstruction :
    (∀ n ∈ ([0, 255] : List Nat), n ≤ 255) ∧
    assembleLine (.send [0, 255]) = .ok [0x100, 0x000, 0x0FF, 0x200] ∧
    (offered .reject [0x100, 0x000, 0x0FF, 0x200] []).port = commandInputs [0x100, 0x000, 0x0FF, 0x200] ++ [] ∧
    assembleLine (.send []) = .ok [0x100, 0x200] ∧
    (offered .reject [0x100, 0x200] []).port = commandInputs [0x100, 0x200] ++ [] ∧
    (∀ ws, (offered .reject ws []).fault = false ∧ (offered .reject ws []).phase = .idle ∧
      (offered .reject ws []).emptyPolicy = .reject) :=
  ⟨by decide, rfl, rfl, rfl, rfl, fun _ => ⟨rfl, rfl, rfl⟩⟩
theorem witness_OnlyTheProtocolOrderRunsWithoutFault :
    (∀ ws, (offered .accept ws []).fault = false ∧ (offered .accept ws []).phase = .idle ∧
      (offered .accept ws []).emptyPolicy = .accept) ∧
    (offered .accept twoOpcodes []).presents (sendCommands [0x80, 0x80]) [] ∧
    Instr.reserved ∉ sendCommands [0x80, 0x80] ∧
    (∃ t, runSteps 4 (offered .accept twoOpcodes []) = .next t ∧ t.fault = false) ∧
    (offered .accept [0x001] []).presents [.data 0x01] [] ∧
    (∃ t, runSteps 1 (offered .accept [0x001] []) = .next t ∧ t.fault = true) :=
  ⟨fun _ => ⟨rfl, rfl, rfl⟩, ⟨twoOpcodes, rfl, by decide⟩, by decide, ⟨_, rfl, rfl⟩, ⟨[0x001], rfl, by decide⟩, ⟨_, rfl, rfl⟩⟩
theorem witness_CommandRunThatEndsWellEmitsWholePackets :
    (offered .reject twoOpcodes []).fault = false ∧ (offered .reject twoOpcodes []).phase = .idle ∧
    (offered .reject twoOpcodes []).emptyPolicy = .reject ∧
    (offered .reject twoOpcodes []).presents (sendCommands [0x80, 0x80]) [] ∧
    ∃ t, runSteps 4 (offered .reject twoOpcodes []) = .next t ∧ t.endsWell = true :=
  ⟨rfl, rfl, rfl, ⟨twoOpcodes, rfl, by decide⟩, ⟨_, rfl, rfl⟩⟩
theorem witness_RunThatEndsWellEmitsPacketsAndCutPackets :
    ∃ t, runSteps 2 { State.reset with port := [.command 0x100, .commandCutByReset 0x051 4] } = .next t ∧
      State.reset.fault = false ∧ State.reset.phase = .idle ∧
      t.endsWell = true ∧ t.wire = [0x55, 0xFF, 0x00, 0x51] := ⟨_, rfl, rfl, rfl, rfl, rfl⟩

/-! ## Witnesses: the assembler -/

theorem witness_AssembledProgramDecodesToItsCommands :
    (∀ l ∈ [AsmLine.start, .data 255, .endLine, .send [0]], l.wellFormed = true) ∧
    (∀ l ∈ [AsmLine.start, .data 255, .endLine, .send [0]], ∀ n, l ≠ .rawWord n) := by
  refine ⟨by decide, ?_⟩
  intro l hl n
  simp only [List.mem_cons, List.not_mem_nil, or_false] at hl
  rcases hl with rfl | rfl | rfl | rfl <;> simp
theorem witness_AssemblerRefusesOutOfRangeOperands :
    255 < 256 ∧ (∀ l ∈ [AsmLine.start, .rawWord 1023, .send [255]], l.wellFormed = true) ∧
    (∀ m ∈ ([0, 255] : List Nat), m ≤ 255) := by decide
/-- A lead of one line, and tokens one digit short, one too long, and with a letter past `f`. -/
theorem witness_MalformedOperandTokensRefuseTheText :
    ReadableLead [] ∧ ReadableLead (['S', 'T', 'A', 'R', 'T'] ++ ['\n']) ∧
    (∀ t ∈ [['1'], ['1', '0', '0'], ['g', '0'], ['0', 'x'], ['0', 'X', '1', '0']],
      isOneToken t = true ∧ isOperandToken t = false) ∧
    EndsOperand [] ∧ EndsOperand [';', 'x'] ∧ EndsOperand ['\n', 'E', 'N', 'D'] ∧
    (∃ rest, [' ', '0', '1'] = ' ' :: rest) ∧
    (∀ d ∈ [('0', '9'), ('A', 'f')], isHexChar d.1 = true ∧ isHexChar d.2 = true) ∧
    parseLine ['D', 'A', 'T', 'A', ' ', 'f', 'F'] = .ok (some (.data 255)) ∧
    parseLine ['S', 'E', 'N', 'D', ' ', 'F', 'F', ' ', '0', '0'] = .ok (some (.send [255, 0])) :=
  ⟨.inl rfl, .inr ⟨['S', 'T', 'A', 'R', 'T'], [.start], rfl, rfl⟩, by decide, .inl rfl, .inr (.inl ⟨_, rfl⟩),
    .inr (.inr ⟨_, rfl⟩), ⟨_, rfl⟩, by decide, rfl, rfl⟩
theorem witness_DataLineTextIsRead :
    isHexChar 'g' = false ∧ isHexChar '/' = false ∧ isHexChar ':' = false ∧ isHexChar '@' = false ∧
    isHexChar 'G' = false ∧ isHexChar '`' = false ∧
    upperHexDigits[15]? = some 'F' ∧ lowerHexDigits[10]? = some 'a' ∧ lowerHexDigits[0]? = some '0' ∧
    '\n' ∉ ([] : List Char) ∧ '\n' ∉ [';', 'c'] ∧ '\n' ∉ [' ', ';'] := by decide

end Sys2Proof.Tests
end

section
/-! SUPPORT. The commands, a step and a run in equations: what each answers, what it leaves unchanged, and the bytes it
puts on `wire`. -/

namespace Sys2Proof.Machine

/-! ### One command -/

theorem exec_of_fault (i : Instr) {s : State} (hf : s.fault = true) : exec i s = .next s := by
  cases i <;> simp [exec, execData, execStart, execEnd, execReserved, gate, hf]

theorem exec_of_raises {i : Instr} {s : State} {c : Cause} (hf : s.fault = false) (h : Raises i s c) :
    exec i s = .next (raiseFault c s) := by
  rcases h with ⟨rfl, rfl⟩ | ⟨rfl, rfl, hp⟩ | ⟨rfl, hp, rfl | ⟨v, rfl⟩⟩ | ⟨rfl, rfl, hp, he⟩
  · simp [exec, execReserved, gate, hf, reservedEffect]
  · simp [exec, execStart, gate, hf, startEffect, hp]
  · simp [exec, execEnd, gate, hf, endEffect, hp]
  · simp [exec, execData, gate, hf, dataEffect, hp]
  · simp [exec, execEnd, gate, hf, endEffect, hp, he]

theorem exec_start_of_idle {s : State} (hf : s.fault = false) (hp : s.phase = .idle) :
    exec .start s = .next (openPacket s) := by
  simp [exec, execStart, gate, hf, startEffect, hp]

theorem exec_data_of_opened (v : Byte) {s : State} (hf : s.fault = false) (hp : s.phase = .opened) :
    exec (.data v) s = .next (accumulate (dataOperand v) (emit (dataBytes v s) s)) := by
  simp [exec, execData, gate, hf, dataEffect, hp]

theorem exec_end_of_opened {s : State} (hf : s.fault = false) (hp : s.phase = .opened)
    (he : emptyRejected s = false) : exec .endCmd s = .next (closePacket (emit (endBytes s) s)) := by
  simp [exec, execEnd, gate, hf, endEffect, hp, he]

/-- Every command is taken in every state (R124, R136). -/
theorem exec_completes (i : Instr) (s : State) : ∃ t, exec i s = .next t := by
  cases i <;> exact ⟨_, rfl⟩

theorem exec_emptyPolicy {i : Instr} {s t : State} (h : exec i s = .next t) : t.emptyPolicy = s.emptyPolicy := by
  rcases exec_cases h with ⟨-, rfl⟩ | ⟨-, c, -, rfl⟩ | ⟨-, -, -, rfl⟩ | ⟨-, -, v, -, rfl⟩ | ⟨-, -, -, -, rfl⟩ <;> rfl

theorem exec_port {i : Instr} {s t : State} (h : exec i s = .next t) : t.port = s.port := by
  rcases exec_cases h with ⟨-, rfl⟩ | ⟨-, c, -, rfl⟩ | ⟨-, -, -, rfl⟩ | ⟨-, -, v, -, rfl⟩ | ⟨-, -, -, -, rfl⟩ <;> rfl

theorem emitted_of_exec {i : Instr} {s t : State} (h : exec i s = .next t) :
    emitted i s = t.wire.drop s.wire.length := by
  simp [emitted, h]

/-- A command appends its emit list to `wire` and alters nothing before it (R27, R105). -/
theorem exec_wire {i : Instr} {s t : State} (h : exec i s = .next t) : t.wire = s.wire ++ emitted i s := by
  rw [emitted_of_exec h]
  rcases exec_cases h with ⟨-, rfl⟩ | ⟨-, c, -, rfl⟩ | ⟨-, -, -, rfl⟩ | ⟨-, -, v, -, rfl⟩ | ⟨-, -, -, -, rfl⟩ <;> simp

/-- A command reads neither `wire` nor the inputs presented after it: with others in their place it does the same to the
registers and appends the same bytes (R47, R49). -/
theorem exec_with_wire_port {i : Instr} {s t : State} (h : exec i s = .next t) (ws : List Byte) (p : List Input) :
    exec i { s with wire := ws, port := p } = .next { t with wire := ws ++ emitted i s, port := p } := by
  rw [emitted_of_exec h]
  rcases exec_cases h with ⟨hf, rfl⟩ | ⟨hf, c, hr, rfl⟩ | ⟨hf, hp, rfl, rfl⟩ | ⟨hf, hp, v, rfl, rfl⟩ |
    ⟨hf, hp, rfl, he, rfl⟩
  · rw [exec_of_fault i (by exact hf)]; simp
  · rw [exec_of_raises (c := c) (by exact hf) (by exact hr)]; simp [raiseFault]
  · rw [exec_start_of_idle (by exact hf) (by exact hp)]; simp [openPacket]
  · rw [exec_data_of_opened v (by exact hf) (by exact hp)]; simp [accumulate, emit, dataBytes, pendingPreamble]
  · rw [exec_end_of_opened (by exact hf) (by exact hp) (by exact he)]
    simp [closePacket, emit, endBytes, endOperand, pendingPreamble]

theorem emitted_with_wire_port (i : Instr) (s : State) (ws : List Byte) (p : List Input) :
    emitted i { s with wire := ws, port := p } = emitted i s := by
  obtain ⟨t, h⟩ := exec_completes i s
  rw [emitted_of_exec (exec_with_wire_port h ws p)]
  simp

/-! ### One step -/

/-- Everything a step can do: wait, run a command, reset the block, or reset it inside a command. -/
theorem step_cases {s t : State} (h : step s = .next t) :
    (s.port = [] ∧ t = s) ∨
    (∃ w rest, s.port = .command w :: rest ∧ exec (decode w) { s with port := rest } = .next t) ∨
    (∃ rest, s.port = .reset :: rest ∧ t = resetBlock { s with port := rest }) ∨
    (∃ w k rest, s.port = .commandCutByReset w k :: rest ∧
      t = resetDuring (decode w) k { s with port := rest }) := by
  cases hp : s.port with
  | nil =>
    rw [step_of_nil hp] at h
    cases h
    exact .inl ⟨rfl, rfl⟩
  | cons e rest =>
    rw [step_of_cons hp] at h
    cases e with
    | command w => exact .inr (.inl ⟨w, rest, rfl, h⟩)
    | reset => cases h; exact .inr (.inr (.inl ⟨rest, rfl, rfl⟩))
    | commandCutByReset w k => cases h; exact .inr (.inr (.inr ⟨w, k, rest, rfl, rfl⟩))

theorem step_completes (s : State) : ∃ t, step s = .next t := by
  cases hp : s.port with
  | nil => exact ⟨s, step_of_nil hp⟩
  | cons e rest =>
    rw [step_of_cons hp]
    cases e with
    | command w => exact exec_completes _ _
    | reset => exact ⟨_, rfl⟩
    | commandCutByReset w k => exact ⟨_, rfl⟩

theorem step_emptyPolicy {s t : State} (h : step s = .next t) : t.emptyPolicy = s.emptyPolicy := by
  rcases step_cases h with ⟨-, rfl⟩ | ⟨w, rest, -, he⟩ | ⟨rest, -, rfl⟩ | ⟨w, k, rest, -, rfl⟩
  · rfl
  · rw [exec_emptyPolicy he]
  · rfl
  · rfl

/-- A step that takes the input `e` appends that input's bytes to `wire` (R34). -/
theorem step_wire {s t : State} {e : Input} {rest : List Input} (hp : s.port = e :: rest) (h : step s = .next t) :
    t.wire = s.wire ++ emittedBy e s := by
  rw [step_of_cons hp] at h
  cases e with
  | command w => rw [exec_wire h, emitted_with_wire_port]; rfl
  | reset => cases h; simp [emittedBy]
  | commandCutByReset w k => cases h; simp [resetDuring, emittedBy, emitted_with_wire_port]

/-! ### A run -/

theorem runSteps_succ_inv {k : Nat} {s u : State} (h : runSteps (k + 1) s = .next u) :
    ∃ t, step s = .next t ∧ runSteps k t = .next u := by
  obtain ⟨t, ht⟩ := step_completes s
  exact ⟨t, ht, runSteps_succ ht ▸ h⟩

/-- What every step keeps, every run keeps. -/
theorem runSteps_keeps {P : State → Prop} (hstep : ∀ s t, P s → step s = .next t → P t) {k : Nat} {s t : State}
    (hs : P s) (h : runSteps k s = .next t) : P t := by
  induction k generalizing s with
  | zero => cases h; exact hs
  | succ k ih =>
    obtain ⟨u, hu, hrun⟩ := runSteps_succ_inv h
    exact ih (hstep s u hs hu) hrun

theorem emittedAlong_of_nil {s : State} (hp : s.port = []) (k : Nat) : emittedAlong k s = [] := by
  cases k <;> simp [emittedAlong, hp]

theorem emittedAlong_succ {k : Nat} {s t : State} {e : Input} {rest : List Input} (hp : s.port = e :: rest)
    (h : step s = .next t) : emittedAlong (k + 1) s = emittedBy e s ++ emittedAlong k t := by
  simp [emittedAlong, hp, h]

/-- A run appends to `wire` the bytes of the inputs it takes, in their order (R27). -/
theorem runSteps_wire {k : Nat} {s t : State} (h : runSteps k s = .next t) : t.wire = s.wire ++ emittedAlong k s := by
  induction k generalizing s with
  | zero => cases h; simp [emittedAlong]
  | succ k ih =>
    obtain ⟨u, hu, hrun⟩ := runSteps_succ_inv h
    cases hp : s.port with
    | nil =>
      obtain rfl : s = u := by simpa [step_of_nil hp] using hu
      rw [ih hrun, emittedAlong_of_nil hp, emittedAlong_of_nil hp]
    | cons e rest => rw [ih hrun, step_wire hp hu, emittedAlong_succ hp hu, List.append_assoc]

/-- The first of the commands presented runs, and the others are presented after it. -/
theorem step_of_presents {s : State} {c : Instr} {cs : List Instr} {rest : List Input}
    (h : s.presents (c :: cs) rest) :
    ∃ p, step s = exec c { s with port := p } ∧
      ∀ t, exec c { s with port := p } = .next t → t.presents cs rest := by
  obtain ⟨ws, hp, hd⟩ := h
  obtain ⟨w, ws, rfl, rfl, rfl⟩ := List.map_eq_cons_iff.mp hd
  exact ⟨commandInputs ws ++ rest, step_of_cons hp, fun t ht => ⟨ws, exec_port ht, rfl⟩⟩

theorem port_of_presents_nil {s : State} {rest : List Input} (h : s.presents [] rest) : s.port = rest := by
  obtain ⟨ws, hp, hd⟩ := h
  obtain rfl := List.map_eq_nil_iff.mp hd
  exact hp

end Sys2Proof.Machine
end

section
/-! SUPPORT. The invariant of the block is kept by every input (10_state R34). -/

namespace Sys2Proof.Machine

theorem State.Inv.with_port {s : State} (h : s.Inv) (p : List Input) : State.Inv { s with port := p } :=
  ⟨⟨h.registers.idle_no_data, h.registers.no_fault_no_cause, h.registers.fault_has_cause⟩, h.openPacket⟩

/-- A reset leaves no packet open, so any bytes may have come before it. -/
theorem resetBlock_inv (s : State) : (resetBlock s).Inv where
  registers := ⟨fun _ => rfl, fun _ => rfl, fun h => by simp at h⟩
  openPacket := fun h => by simp at h

theorem raiseFault_inv {s : State} {c : Cause} (h : s.Inv) (hc : c ≠ .noCause) : (raiseFault c s).Inv where
  registers := ⟨h.registers.idle_no_data, fun hf => by simp at hf, fun _ => hc⟩
  openPacket := h.openPacket

theorem openPacket_inv {s : State} (h : s.Inv) : (openPacket s).Inv where
  registers := ⟨fun _ => rfl, h.registers.no_fault_no_cause, h.registers.fault_has_cause⟩
  openPacket := fun _ => ⟨s.wire, [], by simp⟩

/-- DATA puts the preamble before its pair exactly when the packet has no opcode yet, so `wire` goes on ending with the
preamble and the pairs of all opcodes taken. -/
theorem accumulate_emit_inv {s : State} (v : Byte) (h : s.Inv) (hp : s.phase = .opened) :
    (accumulate (dataOperand v) (emit (dataBytes v s) s)).Inv where
  registers := ⟨fun hi => by simp [hp] at hi, h.registers.no_fault_no_cause, h.registers.fault_has_cause⟩
  openPacket := fun _ => by
    obtain ⟨before, ops, hw, ha, hd⟩ := h.openPacket hp
    refine ⟨before, ops ++ [v], ?_, ?_, by simp⟩
    · cases ops with
      | nil => simp [hw, dataBytes, dataOperand, pair, pendingPreamble_of_no_data hd]
      | cons u us => simp [hw, dataBytes, dataOperand, pair, pendingPreamble_of_data hd]
    · simp [ha, checksum_snoc, dataOperand]

theorem closePacket_emit_inv {s : State} (bs : List Byte) (h : s.Inv) : (closePacket (emit bs s)).Inv where
  registers := ⟨fun _ => rfl, h.registers.no_fault_no_cause, h.registers.fault_has_cause⟩
  openPacket := fun ho => by simp at ho

theorem exec_keeps_inv {i : Instr} {s t : State} (hs : s.Inv) (h : exec i s = .next t) : t.Inv := by
  rcases exec_cases h with ⟨-, rfl⟩ | ⟨-, c, hr, rfl⟩ | ⟨-, -, -, rfl⟩ | ⟨-, hp, v, -, rfl⟩ | ⟨-, -, -, -, rfl⟩
  · exact hs
  · exact raiseFault_inv hs hr.ne_noCause
  · exact openPacket_inv hs
  · exact accumulate_emit_inv v hs hp
  · exact closePacket_emit_inv _ hs

theorem step_keeps_inv {s t : State} (hs : s.Inv) (h : step s = .next t) : t.Inv := by
  rcases step_cases h with ⟨-, rfl⟩ | ⟨w, rest, -, he⟩ | ⟨rest, -, rfl⟩ | ⟨w, k, rest, -, rfl⟩
  · exact hs
  · exact exec_keeps_inv (hs.with_port rest) he
  · exact resetBlock_inv _
  · exact resetBlock_inv _

/-- Settles O35: each input keeps the invariant, by cases over what a step can do. -/
theorem stepKeepsTheInvariant : Obligations.StepKeepsTheInvariant :=
  fun _ _ => step_keeps_inv

/-- Settles O34: the power-on state is one that a reset leaves as it is. -/
theorem powerOnStateMeetsTheInvariant : Obligations.PowerOnStateMeetsTheInvariant :=
  resetBlock_inv State.reset

/-- Settles O36: the invariant holds at power-on, whatever is presented, and every step keeps it. -/
theorem reachableStatesMeetInvariants : Obligations.ReachableStatesMeetInvariants := by
  intro inputs p k t h
  have hreset : State.Inv { State.reset with emptyPolicy := p, port := inputs } :=
    resetBlock_inv { State.reset with emptyPolicy := p, port := inputs }
  obtain ⟨⟨hidle, hnone, hcause⟩, -⟩ := runSteps_keeps (fun _ _ => step_keeps_inv) hreset h
  exact ⟨hidle, hnone, hcause, runSteps_wire h⟩

/-- Settles O37: each of the two runs appends the bytes of its own inputs. -/
theorem wireIsOnlyAppendedInOrder : Obligations.WireIsOnlyAppendedInOrder := by
  intro j k s t u hj hk
  have ht := runSteps_wire hj
  have hu := runSteps_wire hk
  exact ⟨⟨_, ht.symm⟩, ht, ht ▸ hu⟩

end Sys2Proof.Machine
end
section
/-! SUPPORT. The status port shows the registers and nothing else (10_state R31 to R33). -/

namespace Sys2Proof.Machine

theorem Phase.code_getLsbD_zero (p : Phase) : p.code.getLsbD 0 = true ↔ p = .opened := by
  cases p <;> decide

theorem Phase.eq_of_opened_iff {p q : Phase} : (p = .opened ↔ q = .opened) → p = q := by
  cases p <;> cases q <;> decide

theorem Cause.code_injective : Function.Injective Cause.code := by
  intro c d
  cases c <;> cases d <;> decide

/-! The fields of `STATUS`: past the fields below it, each is the register that the port shows there. -/

section
variable (s : State)

theorem status_open : (status s).getLsbD 0 = true ↔ s.phase = .opened := by
  unfold status
  rw [BitVec.getLsbD_append (m := 1)]
  exact s.phase.code_getLsbD_zero

theorem status_hasData : (status s).getLsbD 1 = s.hasData := by
  unfold status
  rw [BitVec.getLsbD_append (m := 1), if_neg (by decide), BitVec.getLsbD_append, if_pos (by decide)]
  exact BitVec.getLsbD_ofBool ..

theorem status_fault : (status s).getLsbD 2 = s.fault := by
  unfold status
  iterate 2 rw [BitVec.getLsbD_append (m := 1), if_neg (by decide)]
  rw [BitVec.getLsbD_append, if_pos (by decide)]
  simp

theorem status_cause : (status s).extractLsb' 3 2 = s.faultCause.code := by
  unfold status
  iterate 3 rw [BitVec.extractLsb'_append_eq_of_le (w := 1) (by decide)]
  rw [BitVec.extractLsb'_append_eq_of_add_le (by decide)]
  exact BitVec.extractLsb'_eq_self

theorem status_reserved : (status s).extractLsb' 5 3 = 0 := by
  unfold status
  iterate 3 rw [BitVec.extractLsb'_append_eq_of_le (w := 1) (by decide)]
  rw [BitVec.extractLsb'_append_eq_of_le (by decide)]
  rw [BitVec.extractLsb'_append_eq_of_add_le (by decide)]
  exact BitVec.extractLsb'_eq_self

theorem status_acc : (status s).extractLsb' 8 8 = s.acc := by
  unfold status
  iterate 3 rw [BitVec.extractLsb'_append_eq_of_le (w := 1) (by decide)]
  iterate 2 rw [BitVec.extractLsb'_append_eq_of_le (by decide)]
  exact BitVec.extractLsb'_eq_self

end

theorem registers_eq_of_status_eq {s t : State} (h : status s = status t) :
    s.phase = t.phase ∧ s.acc = t.acc ∧ s.hasData = t.hasData ∧ s.fault = t.fault ∧ s.faultCause = t.faultCause := by
  refine ⟨?_, ?_, ?_, ?_, ?_⟩
  · exact Phase.eq_of_opened_iff (by rw [← status_open, ← status_open, h])
  · rw [← status_acc s, ← status_acc t, h]
  · rw [← status_hasData s, ← status_hasData t, h]
  · rw [← status_fault s, ← status_fault t, h]
  · exact Cause.code_injective (by rw [← status_cause s, ← status_cause t, h])

/-- Settles O27: one clause for each field, and the code of each cause. -/
theorem statusWordFields : Obligations.StatusWordFields := by
  refine ⟨by decide, fun s => ⟨status_open s, status_hasData s, status_fault s, ?_, ?_, ?_, ?_,
    status_reserved s, status_acc s⟩⟩
  all_goals
    rw [status_cause]
    exact Cause.code_injective.eq_iff' rfl

/-- Settles O28: equal words leave only `wire` and the inputs to differ, and no command reads those. -/
theorem statusDeterminesTheRegisters : Obligations.StatusDeterminesTheRegisters := by
  intro s t hst
  have hreg := registers_eq_of_status_eq hst
  refine ⟨hreg, fun hpol i s' t' hs ht => ?_⟩
  have heq : t = { s with wire := t.wire, port := t.port } := by
    obtain ⟨hp, ha, hd, hf, hc⟩ := hreg
    cases s; cases t
    simp_all
  have hemit : emitted i t = emitted i s := by rw [heq, emitted_with_wire_port]
  have ht' : t' = { s' with wire := t.wire ++ emitted i s, port := t.port } := by
    have h := exec_with_wire_port hs t.wire t.port
    rw [← heq, ht] at h
    cases h
    rfl
  exact ⟨by rw [ht']; rfl, hemit.symm⟩

/-- Settles O29: `STATUS` has no field for the policy, and every step keeps it. -/
theorem emptyPolicyIsFixedAndUnseen : Obligations.EmptyPolicyIsFixedAndUnseen := by
  refine ⟨fun s p => rfl, fun k s t h => ?_⟩
  exact runSteps_keeps (P := fun u => u.emptyPolicy = s.emptyPolicy)
    (fun _ _ hu hstep => (step_emptyPolicy hstep).trans hu) rfl h

end Sys2Proof.Machine
end

section
/-! SUPPORT. The commands of a step, the writes of each command, and the sum in the accumulator (10_state R22 to R29). -/

namespace Sys2Proof.Machine

/-! ### The decoded command -/

/-- Settles O5: the step takes the word at the head of the port. -/
theorem stepRunsTheDecodedCommand : Obligations.StepRunsTheDecodedCommand := by
  rintro s w i rest hport rfl -
  exact step_of_cons hport

theorem decode_portWord {nbits w : Nat} {i : Instr} (h : decodeTableWord nbits w = some i) :
    decode (portWord nbits w) = i := by
  unfold decodeTableWord decodeNumber at h
  by_cases hr : commandWordInRange (tableNumber nbits w) = true
  · simpa [hr, portWord] using h
  · simp [hr] at h

/-- Settles O6: the word placed on the port is the next one taken, and taking it leaves the port as it was. -/
theorem placedWordIsTheNextCommand : Obligations.PlacedWordIsTheNextCommand := by
  intro s nbits w i h
  rw [← decode_portWord h]
  rfl

/-! ### The writes -/

/-- Settles O17: each outcome of a command writes what its row of R21, R22 and R24 says. -/
theorem registerWritesOfEachCommand : Obligations.RegisterWritesOfEachCommand := by
  intro i s t h
  rcases exec_cases h with ⟨hf, rfl⟩ | ⟨hf, c, -, rfl⟩ | ⟨hf, hp, rfl, rfl⟩ | ⟨hf, hp, v, rfl, rfl⟩ |
    ⟨hf, hp, rfl, -, rfl⟩
  · simp [hf]
  · simp
  · simp [hf]
  · simp [hf, hp, dataOperand]
  · simp [hf, hp]

/-- Settles O22: of the outcomes of a command, only a raised fault writes the two fault fields. -/
theorem causeIsWrittenOnlyOnFaultEntry : Obligations.CauseIsWrittenOnlyOnFaultEntry := by
  intro i s t h hne
  rcases exec_cases h with ⟨-, rfl⟩ | ⟨hf, c, hr, rfl⟩ | ⟨-, -, -, rfl⟩ | ⟨-, -, v, -, rfl⟩ | ⟨-, -, -, -, rfl⟩
  · simp at hne
  · refine ⟨hf, rfl, ?_⟩
    rcases hr with ⟨rfl, rfl⟩ | ⟨rfl, rfl, hp⟩ | ⟨rfl, hp, hi⟩ | ⟨rfl, rfl, -, he⟩
    · exact .inl ⟨rfl, rfl⟩
    · exact .inr (.inl ⟨rfl, .inl ⟨rfl, hp⟩⟩)
    · exact .inr (.inl ⟨rfl, .inr ⟨hi.symm, hp⟩⟩)
    · exact .inr (.inr ⟨rfl, rfl, by simpa [emptyRejected] using he⟩)
  · simp at hne
  · simp at hne
  · simp at hne

/-- Settles O30: a reset writes each register; START overwrites `acc`, and in the idle block no command emits a byte. -/
theorem resetValues : Obligations.ResetValues := by
  refine ⟨rfl, rfl, rfl, rfl, rfl, rfl, fun s rest hp => ?_, fun a => ⟨rfl, fun i => ?_⟩⟩
  · exact ⟨_, step_of_cons hp, rfl, rfl, rfl, rfl, rfl, rfl⟩
  · cases i <;> rfl

/-! ### The accumulator -/

theorem checksum_cons (v : Byte) (vs : List Byte) : checksum (v :: vs) = v + checksum vs := by
  apply BitVec.eq_of_toNat_eq
  simp [checksum]

/-- A run of DATA commands adds their opcodes to the accumulator of the open packet (R22, R101). -/
theorem runSteps_data {s : State} {vs : List Byte} {rest : List Input} (hf : s.fault = false) (hp : s.phase = .opened)
    (h : s.presents (vs.map Instr.data) rest) :
    ∃ t, runSteps vs.length s = .next t ∧ t.fault = false ∧ t.phase = .opened ∧ t.port = rest ∧
      t.acc = s.acc + checksum vs := by
  induction vs generalizing s with
  | nil => exact ⟨s, rfl, hf, hp, port_of_presents_nil h, by simp⟩
  | cons v vs ih =>
    obtain ⟨p, hstep, hnext⟩ := step_of_presents h
    have hexec := exec_data_of_opened v (s := { s with port := p }) hf hp
    obtain ⟨t, hrun, htf, htp, hport, hacc⟩ := ih (by exact hf) (by exact hp) (hnext _ hexec)
    refine ⟨t, (runSteps_succ (hstep.trans hexec)).trans hrun, htf, htp, hport, ?_⟩
    simp [hacc, dataOperand, checksum_cons, BitVec.add_assoc]

/-- Settles O48: START clears the accumulator, and the DATA commands after it add up the checksum. -/
theorem accumulatorHoldsTheSumOfTheOpenPacket : Obligations.AccumulatorHoldsTheSumOfTheOpenPacket := by
  intro s vs rest hf hp h
  obtain ⟨p, hstep, hnext⟩ := step_of_presents h
  have hexec := exec_start_of_idle (s := { s with port := p }) hf hp
  obtain ⟨t, hrun, htf, htp, hport, hacc⟩ := runSteps_data (by exact hf) (by exact rfl) (hnext _ hexec)
  have hsum : t.acc = checksum vs := by simpa using hacc
  refine ⟨t, (runSteps_succ (hstep.trans hexec)).trans hrun, htf, htp, hport, ?_, ?_⟩
  · simp [hsum, checksum, opcodeSum]
  · rintro rfl
    exact hsum

end Sys2Proof.Machine
end

section
/-! SUPPORT. What the block reads of its two ports: nothing of what it has emitted, nothing of a command not yet taken
(20_memory R41 to R49). -/

namespace Sys2Proof.Machine

/-- Settles O38: a command's emit list is what its next state has on `wire` past the bytes that stood there before. -/
theorem commandsDoNotReadTheirOutput : Obligations.CommandsDoNotReadTheirOutput := by
  intro i s t wire' port' h
  rw [← emitted_of_exec h]
  exact exec_with_wire_port h wire' port'

/-- Settles O7: the step of the empty port is the waiting step. -/
theorem stepWithoutInputWaits : Obligations.StepWithoutInputWaits :=
  fun _ => step_of_nil

/-- DATA in an open packet that has data emits its pair alone, with no preamble before it (R101). -/
theorem exec_data_of_data (v : Byte) {s : State} (hf : s.fault = false) (hp : s.phase = .opened)
    (hd : s.hasData = true) :
    exec (.data v) s = .next { s with acc := s.acc + v, wire := s.wire ++ [v, ~~~v] } := by
  rw [exec_data_of_opened v hf hp]
  simp [accumulate, emit, dataBytes, dataOperand, pair, complement, hd]

/-- Settles O18: the first DATA leaves the packet open and with data, so the second does the same again. -/
theorem twoEqualDataCommandsAddTwice : Obligations.TwoEqualDataCommandsAddTwice := by
  intro v s hf hp hd
  refine ⟨_, exec_data_of_data v hf hp hd, ?_⟩
  rw [exec_data_of_data v (by exact hf) (by exact hp) (by exact hd)]
  simp

end Sys2Proof.Machine
end

section
/-! SUPPORT. The command word is its KIND followed by eight bits; the decoder, the encoder and the pattern table in those
terms (30_encoding R60 to R66). -/

namespace Sys2Proof

/-! ### The fields of a word -/

section
variable (k : BitVec 2) (d : Byte)

@[simp] theorem kindField_append : kindField (k ++ d) = k := BitVec.extractLsb'_append_eq_left

@[simp] theorem dataField_append : dataField (k ++ d) = d := BitVec.extractLsb'_append_eq_right

theorem kindField_append_dataField (w : CommandWord) : kindField w ++ dataField w = w :=
  BitVec.extractLsb'_append_extractLsb'

/-- Every word has one of the four KINDs. -/
theorem commandWord_cases (w : CommandWord) :
    ∃ d : Byte, w = 0b00#2 ++ d ∨ w = 0b01#2 ++ d ∨ w = 0b10#2 ++ d ∨ w = 0b11#2 ++ d := by
  have hkind : ∀ k : BitVec 2, k = 0b00 ∨ k = 0b01 ∨ k = 0b10 ∨ k = 0b11 := by decide
  have hw : ∀ {k}, kindField w = k → w = k ++ dataField w := fun h => h ▸ (kindField_append_dataField w).symm
  exact ⟨dataField w, (hkind (kindField w)).imp hw (.imp hw (.imp hw hw))⟩

/-! ### The decoder and the encoder -/

@[simp] theorem decode_data : decode (0b00#2 ++ d) = .data d := by simp [decode]

@[simp] theorem decode_start : decode (0b01#2 ++ d) = .start := by simp [decode]

@[simp] theorem decode_end : decode (0b10#2 ++ d) = .endCmd := by simp [decode]

@[simp] theorem decode_reserved : decode (0b11#2 ++ d) = .reserved := by simp [decode]

end

@[simp] theorem decode_encode (i : Instr) : decode (encode i) = i := by
  cases i with
  | data v => exact decode_data v
  | start => exact decode_start 0
  | endCmd => exact decode_end 0
  | reserved => exact decode_reserved 0

theorem map_decode_map_encode (is : List Instr) : (is.map encode).map decode = is := by
  rw [List.map_map, funext decode_encode (f := decode ∘ encode) (g := id), List.map_id]

theorem kindField_encode_decode (w : CommandWord) : kindField (encode (decode w)) = kindField w := by
  obtain ⟨d, rfl | rfl | rfl | rfl⟩ := commandWord_cases w
  · simp [encode]
  · rw [decode_start, kindField_append]; rfl
  · rw [decode_end, kindField_append]; rfl
  · rw [decode_reserved, kindField_append]; rfl

/-- A word that decodes to DATA has no ignored bits (R63). -/
theorem encode_of_decode_eq_data {w : CommandWord} {v : Byte} (h : decode w = .data v) : encode (.data v) = w := by
  obtain ⟨d, rfl | rfl | rfl | rfl⟩ := commandWord_cases w
  · obtain rfl : d = v := by simpa using h
    rfl
  all_goals simp at h

/-- The canonical words have zeros in the bits that the decoder ignores (R64). -/
theorem dataField_encode_of_ne_data {i : Instr} (h : ¬ ∃ v, i = .data v) : dataField (encode i) = 0 := by
  cases i with
  | data v => exact absurd ⟨v, rfl⟩ h
  | start => exact Laws.EncodedFields.start.2
  | endCmd => exact Laws.EncodedFields.endCmd.2
  | reserved => exact Laws.EncodedFields.reserved.2

/-- Settles O3: the word of a command holds its KIND and operand, so the decoder finds both again. -/
theorem decodeOfEncodeAndEncodeOfDecode : Obligations.DecodeOfEncodeAndEncodeOfDecode := by
  refine ⟨fun i _ => decode_encode i, ?_⟩
  rintro w i rfl
  refine ⟨kindField_encode_decode w, ?_, dataField_encode_of_ne_data⟩
  rintro ⟨v, h⟩
  rw [h, encode_of_decode_eq_data h]

/-- Settles O2: one clause for each KIND. -/
theorem decoderFollowsKindField : Obligations.DecoderFollowsKindField := by
  intro k d
  refine ⟨?_, ?_, ?_, ?_⟩ <;> rintro rfl
  · exact decode_data d
  · exact decode_start d
  · exact decode_end d
  · exact decode_reserved d

/-- Settles O4: the vectors by evaluation; DATA's word is its operand below two zero bits. -/
theorem decoderVectorsOfTheSpec : Obligations.DecoderVectorsOfTheSpec := by
  refine ⟨by decide, by decide, by decide, by decide, by decide, by decide, by decide, by decide, by decide,
    rfl, rfl, fun v => ?_⟩
  exact (BitVec.setWidth_eq_append (by decide)).symm

/-! ### The pattern table -/

/-- The mask of a row keeps KIND alone, and its pattern has nothing else. -/
theorem selects_iff_kindField {r : EncodingRow} (hr : r ∈ encodingTable) (w : CommandWord) :
    r.selects w = true ↔ kindField w = kindField r.pattern := by
  have hrow : ∀ r ∈ encodingTable, r.mask = 0b11#2 ++ 0#8 ∧ r.pattern = kindField r.pattern ++ 0#8 := by decide
  obtain ⟨hmask, hpattern⟩ := hrow r hr
  have hmasked : w &&& r.mask = kindField w ++ 0#8 := by
    rw [hmask, ← kindField_append_dataField w, BitVec.and_append, kindField_append]
    congr 1
    · exact BitVec.and_allOnes
    · exact BitVec.and_zero
  rw [EncodingRow.selects, beq_iff_eq, hmasked, hpattern, kindField_append, BitVec.append_left_inj]

theorem row_eq_of_kindField_eq :
    ∀ r ∈ encodingTable, ∀ r' ∈ encodingTable, kindField r'.pattern = kindField r.pattern → r' = r := by
  decide

/-- Each KIND has its row, named as the command that the decoder reads. -/
theorem exists_row_of_word (w : CommandWord) :
    ∃ r ∈ encodingTable, kindField w = kindField r.pattern ∧ (decode w).mnemonic = r.mnemonic := by
  obtain ⟨d, rfl | rfl | rfl | rfl⟩ := commandWord_cases w
  · exact ⟨⟨"DATA", 0x000, 0x300⟩, by decide, kindField_append _ _, by rw [decode_data]; rfl⟩
  · exact ⟨⟨"START", 0x100, 0x300⟩, by decide, kindField_append _ _, by rw [decode_start]; rfl⟩
  · exact ⟨⟨"END", 0x200, 0x300⟩, by decide, kindField_append _ _, by rw [decode_end]; rfl⟩
  · exact ⟨⟨"RESERVED", 0x300, 0x300⟩, by decide, kindField_append _ _, by rw [decode_reserved]; rfl⟩

/-- Settles O1: a row selects by KIND, and no two rows have the same one. -/
theorem exactlyOnePatternRowSelectsEachWord : Obligations.ExactlyOnePatternRowSelectsEachWord := by
  intro w
  obtain ⟨r, hr, hkind, hname⟩ := exists_row_of_word w
  refine ⟨r, hr, (selects_iff_kindField hr w).mpr hkind, hname, fun r' hr' hsel => ?_⟩
  exact row_eq_of_kindField_eq r hr r' hr' (((selects_iff_kindField hr' w).mp hsel).symm.trans hkind)

end Sys2Proof
end

section
/-! SUPPORT. The layout of a packet: three preamble bytes, then aligned pairs (30_encoding R70 to R73). -/

namespace Sys2Proof.Machine

/-- The checksum pair is one more pair after those of the opcodes. -/
theorem encodePacket_eq (ops : List Byte) : encodePacket ops = preamble ++ pairs (ops ++ [checksum ops]) := by
  simp [encodePacket, encodeLoop_eq, checksum]

theorem pairs_getElem?_even (vs : List Byte) (i : Nat) : (pairs vs)[2 * i]? = vs[i]? := by
  induction vs generalizing i with
  | nil => simp
  | cons v vs ih =>
    cases i with
    | zero => rfl
    | succ i => simpa [Nat.mul_succ] using ih i

theorem pairs_getElem?_odd (vs : List Byte) (i : Nat) : (pairs vs)[2 * i + 1]? = vs[i]?.map complement := by
  induction vs generalizing i with
  | nil => simp
  | cons v vs ih =>
    cases i with
    | zero => rfl
    | succ i => simpa [Nat.mul_succ] using ih i

theorem encodePacket_getElem?_byte (ops : List Byte) (k : Nat) :
    (encodePacket ops)[3 + 2 * k]? = (ops ++ [checksum ops])[k]? := by
  rw [encodePacket_eq, List.getElem?_append_right (by simp), preamble_length, Nat.add_sub_cancel_left]
  exact pairs_getElem?_even _ k

theorem encodePacket_getElem?_complement (ops : List Byte) (k : Nat) :
    (encodePacket ops)[4 + 2 * k]? = (ops ++ [checksum ops])[k]?.map complement := by
  rw [encodePacket_eq, List.getElem?_append_right (by simp; omega), preamble_length,
    show 4 + 2 * k - 3 = 2 * k + 1 by omega]
  exact pairs_getElem?_odd _ k

/-- Settles O43: pair `k` starts at offset `3 + 2k`, and the checksum pair is the one after the opcodes'. -/
theorem packetLayoutByOffset : Obligations.PacketLayoutByOffset := by
  intro ops
  refine ⟨?_, ?_, fun i h => ⟨?_, ?_⟩, ?_, ?_, fun k _ => ?_⟩
  · rw [encodePacket_eq]
    simp
    omega
  · rw [encodePacket_eq]
    rfl
  · simp [encodePacket_getElem?_byte, List.getElem?_append_left h]
  · simp [encodePacket_getElem?_complement, List.getElem?_append_left h, complement]
  · simp [encodePacket_getElem?_byte]
  · simp [encodePacket_getElem?_complement, complement]
  · rw [encodePacket_getElem?_complement, encodePacket_getElem?_byte]
    rfl

end Sys2Proof.Machine
end

section
/-! SUPPORT. START, DATA ... and END as a run from an idle block without a fault (41_commands R100 to R103, R110). -/

namespace Sys2Proof.Machine

/-- The block `s` once it has opened a packet and taken the opcodes `ops`, with the inputs `p` still presented. -/
def State.withOpenPacket (s : State) (ops : List Byte) (p : List Input) : State :=
  { s with phase := .opened, acc := checksum ops, hasData := !ops.isEmpty,
           wire := s.wire ++ (if ops = [] then [] else preamble ++ pairs ops), port := p }

section
variable {s : State} (hf : s.fault = false) {ops : List Byte} {p : List Input}
include hf

theorem exec_start_opens (hp : s.phase = .idle) (p : List Input) :
    exec .start { s with port := p } = .next (s.withOpenPacket [] p) := by
  rw [exec_start_of_idle (by exact hf) (by exact hp)]
  simp [openPacket, State.withOpenPacket]

/-- The first opcode puts the preamble before its pair, and every later one its pair alone (R101). -/
theorem exec_data_extends (v : Byte) :
    exec (.data v) (s.withOpenPacket ops p) = .next (s.withOpenPacket (ops ++ [v]) p) := by
  rw [exec_data_of_opened v (by exact hf) rfl]
  cases ops with
  | nil =>
    simp [State.withOpenPacket, accumulate, emit, dataBytes, dataOperand, pendingPreamble, pair,
      checksum_cons]
  | cons u us =>
    have hsum : checksum (u :: (us ++ [v])) = checksum (u :: us) + v := checksum_snoc (u :: us) v
    simp [State.withOpenPacket, accumulate, emit, dataBytes, dataOperand, pendingPreamble, pair, hsum]

theorem exec_end_of_openPacket (hp : s.phase = .idle) (h : ops ≠ [] ∨ s.emptyPolicy = .accept) :
    exec .endCmd (s.withOpenPacket ops p) =
      .next { s with acc := checksum ops, hasData := false, wire := s.wire ++ encodePacket ops, port := p } := by
  have he : emptyRejected (s.withOpenPacket ops p) = false := by
    rcases h with h | h <;> simp [emptyRejected, State.withOpenPacket, h]
  rw [exec_end_of_opened (by exact hf) rfl he]
  cases ops <;>
    simp [State.withOpenPacket, closePacket, emit, endBytes, endOperand, pendingPreamble, pair, encodePacket_eq, hp]

theorem exec_end_of_emptyPacket (h : s.emptyPolicy = .reject) :
    exec .endCmd (s.withOpenPacket [] p) = .next (raiseFault .empty (s.withOpenPacket [] p)) :=
  exec_of_raises (by exact hf) (.inr (.inr (.inr ⟨rfl, rfl, rfl, by simp [emptyRejected, State.withOpenPacket, h]⟩)))

/-- The DATA commands presented to an open packet join its opcodes; what comes after them is presented next. -/
theorem runSteps_data_extends {vs : List Byte} {cs : List Instr} {rest : List Input}
    (h : (s.withOpenPacket ops p).presents (vs.map Instr.data ++ cs) rest) :
    ∃ q, runSteps vs.length (s.withOpenPacket ops p) = .next (s.withOpenPacket (ops ++ vs) q) ∧
      (s.withOpenPacket (ops ++ vs) q).presents cs rest := by
  induction vs generalizing ops p with
  | nil => exact ⟨p, by simp, by simpa using h⟩
  | cons v vs ih =>
    obtain ⟨p', hstep, hnext⟩ := step_of_presents h
    have hexec := exec_data_extends hf v (ops := ops) (p := p')
    obtain ⟨q, hrun, hq⟩ := ih (hnext _ hexec)
    rw [List.append_assoc, List.singleton_append] at hrun hq
    exact ⟨q, (runSteps_succ (hstep.trans hexec)).trans hrun, hq⟩

/-- START and DATA commands leave a packet open with their opcodes, whatever command comes after them. -/
theorem runSteps_start_data (hp : s.phase = .idle) {vs : List Byte} {cs : List Instr} {rest : List Input}
    (h : s.presents (.start :: (vs.map Instr.data ++ cs)) rest) :
    ∃ q, runSteps (vs.length + 1) s = .next (s.withOpenPacket vs q) ∧ (s.withOpenPacket vs q).presents cs rest := by
  obtain ⟨p, hstep, hnext⟩ := step_of_presents h
  have hexec := exec_start_opens hf hp p
  obtain ⟨q, hrun, hq⟩ := runSteps_data_extends hf (hnext _ hexec)
  exact ⟨q, (runSteps_succ (hstep.trans hexec)).trans hrun, hq⟩

/-- What the commands of SEND do is what their END does to the packet that the others leave open. -/
theorem runSteps_sendCommands_eq_exec_end (hp : s.phase = .idle) {vs : List Byte} {rest : List Input}
    (h : s.presents (sendCommands vs) rest) :
    runSteps (vs.length + 2) s = exec .endCmd (s.withOpenPacket vs rest) := by
  obtain ⟨q, hrun, hq⟩ := runSteps_start_data hf hp h
  obtain ⟨p, hstep, hnext⟩ := step_of_presents hq
  obtain ⟨t, hend⟩ := exec_completes .endCmd (s.withOpenPacket vs p)
  have hport : p = rest := (exec_port hend).symm.trans (port_of_presents_nil (hnext t hend))
  calc runSteps (vs.length + 2) s = runSteps 1 (s.withOpenPacket vs q) := runSteps_add (k := 1) hrun
    _ = .next t := runSteps_succ (hstep.trans hend)
    _ = exec .endCmd (s.withOpenPacket vs rest) := by rw [← hport, hend]

/-- Where END takes the packet, the commands of SEND append its encoding (R110). -/
theorem runSteps_sendCommands (hp : s.phase = .idle) {vs : List Byte} {rest : List Input}
    (h : s.presents (sendCommands vs) rest) (hok : vs ≠ [] ∨ s.emptyPolicy = .accept) :
    runSteps (vs.length + 2) s = .next
      { s with acc := checksum vs, hasData := false, wire := s.wire ++ encodePacket vs, port := rest } :=
  (runSteps_sendCommands_eq_exec_end hf hp h).trans (exec_end_of_openPacket hf hp hok)

/-- Where END refuses the empty packet, it stays open and nothing is emitted (R103, R110). -/
theorem runSteps_sendCommands_reject (hp : s.phase = .idle) {rest : List Input}
    (h : s.presents (sendCommands []) rest) (hpol : s.emptyPolicy = .reject) :
    runSteps 2 s = .next (raiseFault .empty (s.withOpenPacket [] rest)) :=
  (runSteps_sendCommands_eq_exec_end hf hp h).trans (exec_end_of_emptyPacket hf hpol)

end

end Sys2Proof.Machine
end

section
/-! SUPPORT. The assembler's words: those of a line are the canonical words of its commands, and an operand out of range
refuses the program (30_encoding R77, R78; 60_exceptions R128). -/

namespace Sys2Proof.Machine

theorem encode_data_ofNat {n : Nat} (h : n ≤ 255) : encode (.data (BitVec.ofNat 8 n)) = BitVec.ofNat 10 n := by
  apply BitVec.eq_of_toNat_eq
  rw [encode, BitVec.toNat_append]
  simp
  omega

/-- The commands of a line (R77, R78); a raw word is not read as one. -/
def AsmLine.commands : AsmLine → List Instr
  | .start => [.start]
  | .data n => [.data (BitVec.ofNat 8 n)]
  | .endLine => [.endCmd]
  | .send ns => sendCommands (ns.map (BitVec.ofNat 8))
  | .rawWord _ => []

theorem assembleLine_send {ns : List Nat} (h : ∀ n ∈ ns, n ≤ 255) :
    assembleLine (.send ns) = .ok ((sendCommands (ns.map (BitVec.ofNat 8))).map encode) := by
  simp [assembleLine, dataWords_in_range ns h, sendCommands]

theorem assembleLine_eq_commands {l : AsmLine} (hw : l.wellFormed = true) (hr : ∀ n, l ≠ .rawWord n) :
    assembleLine l = .ok (l.commands.map encode) := by
  cases l with
  | start => rfl
  | endLine => rfl
  | data n => exact dataWords_in_range [n] (by simpa [AsmLine.wellFormed, opcodeInRange] using hw)
  | send ns => exact assembleLine_send (by simpa [AsmLine.wellFormed, opcodeInRange] using hw)
  | rawWord n => exact absurd rfl (hr n)

theorem assemble_eq_commands {lines : List AsmLine} (hw : ∀ l ∈ lines, l.wellFormed = true)
    (hr : ∀ l ∈ lines, ∀ n, l ≠ .rawWord n) :
    assemble lines = .ok ((lines.flatMap AsmLine.commands).map encode) := by
  induction lines with
  | nil => rfl
  | cons l ls ih =>
    rw [List.forall_mem_cons] at hw hr
    simp [assemble, assembleLine_eq_commands hw.1 hr.1, ih hw.2 hr.2]

theorem reserved_not_mem_commands (l : AsmLine) : .reserved ∉ l.commands := by
  cases l <;> simp [AsmLine.commands, sendCommands]

/-- Settles O56: the words are the canonical ones of the lines' commands, and the decoder reads those back. -/
theorem assembledProgramDecodesToItsCommands : Obligations.AssembledProgramDecodesToItsCommands := by
  intro lines hw hr
  refine ⟨_, assemble_eq_commands hw hr, ?_, fun w hmem hres => ?_⟩
  · rw [map_decode_map_encode]
    exact congrArg (lines.flatMap ·) (funext fun l => by cases l <;> rfl)
  · have hdec : decode w ∈ lines.flatMap AsmLine.commands :=
      map_decode_map_encode (lines.flatMap AsmLine.commands) ▸ List.mem_map_of_mem hmem
    obtain ⟨l, -, hl⟩ := List.mem_flatMap.mp (hres ▸ hdec)
    exact reserved_not_mem_commands l hl

/-- Settles O52: SEND's words decode to START, a DATA for each opcode and END, and these run as R110 says. -/
theorem sendPseudoInstruction : Obligations.SendPseudoInstruction := by
  intro ns hns
  have hdata : ∀ n ∈ ns, encode (.data (BitVec.ofNat 8 n)) = BitVec.ofNat 10 n :=
    fun n hn => encode_data_ofNat (hns n hn)
  refine ⟨by simpa [assembleLine_send hns, sendCommands, encode] using hdata, ?_⟩
  intro s ws rest hws hport hf hp
  obtain rfl : (sendCommands (ns.map (BitVec.ofNat 8))).map encode = ws := by simpa [assembleLine_send hns] using hws
  have hpres : s.presents (sendCommands (ns.map (BitVec.ofNat 8))) rest := ⟨_, hport, map_decode_map_encode _⟩
  have hlen : ((sendCommands (ns.map (BitVec.ofNat 8))).map encode).length = (ns.map (BitVec.ofNat 8)).length + 2 := by
    simp [sendCommands]
  rw [hlen]
  refine ⟨fun hok => ?_, ?_⟩
  · exact ⟨_, runSteps_sendCommands hf hp hpres (by simpa using hok), rfl, hp, hf⟩
  · rintro rfl hpol
    exact ⟨_, runSteps_sendCommands_reject hf hp hpres hpol, by simp [State.withOpenPacket], rfl⟩

/-- The first operand out of range is the one reported. -/
theorem dataWords_out_of_range {good : List Nat} (more : List Nat) {n : Nat} (hgood : ∀ m ∈ good, m ≤ 255)
    (hn : 255 < n) : dataWords (good ++ n :: more) = .error (.operandOutOfRange n) := by
  induction good with
  | nil => simp [dataWords, dataWord, opcodeInRange, Nat.not_le.mpr hn]
  | cons m ms ih =>
    rw [List.forall_mem_cons] at hgood
    simp [dataWords, dataWord, opcodeInRange, hgood.1, ih hgood.2]

theorem assemble_append_error {before : List AsmLine} (after : List AsmLine) {l : AsmLine} {e : AsmError}
    (hb : ∀ l ∈ before, l.wellFormed = true) (hl : assembleLine l = .error e) :
    assemble (before ++ l :: after) = .error e := by
  induction before with
  | nil => simp [assemble, hl]
  | cons b bs ih =>
    rw [List.forall_mem_cons] at hb
    obtain ⟨ws, hws⟩ := assembleLine_of_wellFormed hb.1
    simp [assemble, hws, ih hb.2]

/-- Settles O57: the line is refused for its operand, and the program for its line. -/
theorem assemblerRefusesOutOfRangeOperands : Obligations.AssemblerRefusesOutOfRangeOperands := by
  intro before after n hn hb
  refine ⟨assemble_append_error after hb (dataWords_out_of_range [] (good := []) (by simp) hn), ?_⟩
  intro good more hgood
  exact assemble_append_error after hb (by simp [assembleLine, dataWords_out_of_range more hgood hn])

end Sys2Proof.Machine
end

section
/-! SUPPORT. Hex digits and operand tokens: what the reader takes, and the values it gives (30_encoding R77). -/

namespace Sys2Proof.Machine

/-- The value of a hex digit is its index among the digits of its case (R77). -/
theorem hexDigit_eq_some_iff {c : Char} {n : Nat} :
    hexDigit c = some n ↔ upperHexDigits[n]? = some c ∨ lowerHexDigits[n]? = some c := by
  constructor
  · intro h
    have hdigits : ∀ n < 10, upperHexDigits[n]? = some (Char.ofNat (48 + n)) := by decide
    have hupper : ∀ n < 16, 10 ≤ n → upperHexDigits[n]? = some (Char.ofNat (55 + n)) := by decide
    have hlower : ∀ n < 16, 10 ≤ n → lowerHexDigits[n]? = some (Char.ofNat (87 + n)) := by decide
    have hchar : ∀ m, m = c.toNat → Char.ofNat m = c := fun m hm => hm ▸ Char.ofNat_toNat c
    simp only [hexDigit] at h
    split_ifs at h <;> cases h
    · left; rw [hdigits _ (by omega), hchar _ (by omega)]
    · left; rw [hupper _ (by omega) (by omega), hchar _ (by omega)]
    · right; rw [hlower _ (by omega) (by omega), hchar _ (by omega)]
  · have hupper : ∀ n (h : n < upperHexDigits.length), hexDigit upperHexDigits[n] = some n := by decide
    have hlower : ∀ n (h : n < lowerHexDigits.length), hexDigit lowerHexDigits[n] = some n := by decide
    rintro (h | h) <;> obtain ⟨hn, rfl⟩ := List.getElem?_eq_some_iff.mp h
    · exact hupper n hn
    · exact hlower n hn

theorem isHexChar_iff {c : Char} : isHexChar c = true ↔ ∃ n, hexDigit c = some n := by
  simp [isHexChar, hexDigit_eq_some_iff, List.mem_iff_getElem?, exists_or]

theorem isHexChar_eq_isSome (c : Char) : isHexChar c = (hexDigit c).isSome :=
  Bool.eq_iff_iff.mpr (isHexChar_iff.trans Option.isSome_iff_exists.symm)

theorem hexDigit_lt {c : Char} {n : Nat} (h : hexDigit c = some n) : n < 16 := by
  rcases hexDigit_eq_some_iff.mp h with h | h <;> exact (List.getElem?_eq_some_iff.mp h).1

theorem hexPair_of_digits {a b : Char} {x y : Nat} (hx : hexDigit a = some x) (hy : hexDigit b = some y) :
    hexPair a b = some (16 * x + y) := by
  simp [hexPair, hx, hy]

theorem hexPair_isSome (a b : Char) : (hexPair a b).isSome = (isHexChar a && isHexChar b) := by
  rw [isHexChar_eq_isSome, isHexChar_eq_isSome, hexPair]
  cases hexDigit a <;> cases hexDigit b <;> rfl

theorem hexPair_le {a b : Char} {n : Nat} (h : hexPair a b = some n) : n ≤ 255 := by
  unfold hexPair at h
  split at h
  · next x y hx hy =>
    have hxlt := hexDigit_lt hx
    have hylt := hexDigit_lt hy
    cases h
    omega
  · cases h

theorem hexByte_le {t : List Char} {n : Nat} (h : hexByte t = some n) : n ≤ 255 := by
  unfold hexByte at h
  split at h
  · exact hexPair_le h
  · split at h
    · exact hexPair_le h
    · cases h
  · cases h

/-- The reader takes the operand tokens of R77 and no others. -/
theorem hexByte_isSome (t : List Char) : (hexByte t).isSome = isOperandToken t := by
  unfold hexByte isOperandToken
  split
  · exact hexPair_isSome _ _
  · next z x a b =>
    split_ifs with hzx
    · obtain ⟨rfl, rfl⟩ : z = '0' ∧ x = 'x' := by simpa using hzx
      exact hexPair_isSome a b
    · split
      · next h => cases h
      · next h =>
        cases h
        exact absurd rfl hzx
      · rfl
  · next hpair hfour =>
    split
    · exact (hpair _ _ rfl).elim
    · exact (hfour _ _ _ _ rfl).elim
    · rfl

end Sys2Proof.Machine
end

section
/-! SUPPORT. The tokens of a line, and what a DATA or SEND line is read as (30_encoding R76 to R78). -/

namespace Sys2Proof.Machine

/-! ### The tokens of a line -/

/-- What may follow a token on its line: nothing, a blank, or a comment. -/
def EndsToken (tail : List Char) : Prop :=
  tail = [] ∨ (∃ rest, tail = ' ' :: rest) ∨ ∃ rest, tail = ';' :: rest

theorem isOneToken_iff {t : List Char} :
    isOneToken t = true ↔ t ≠ [] ∧ ∀ c ∈ t, isBlank c = false ∧ c ≠ '\n' ∧ c ≠ ';' := by
  have hchar : ∀ c, (c ≠ ' ' ∧ c ≠ '\t' ∧ c ≠ '\r' ∧ c ≠ '\n' ∧ c ≠ ';') ↔
      isBlank c = false ∧ c ≠ '\n' ∧ c ≠ ';' := by
    simp [isBlank, and_assoc]
  simp [isOneToken, hchar]

/-- The tokens of a line, past a token and what ends it. -/
theorem tokens_stripComment_token {t tail : List Char} (ht : isOneToken t = true) (htail : EndsToken tail) :
    tokens (stripComment (t ++ tail)) = t :: tokens (stripComment tail) := by
  obtain ⟨hne, hchars⟩ := isOneToken_iff.mp ht
  have hstrip : stripComment (t ++ tail) = t ++ stripComment tail :=
    List.takeWhile_append_of_pos fun c hc => by simpa using (hchars c hc).2.2
  rw [hstrip, tokens, tokensFrom_word _ _ _ fun c hc => (hchars c hc).1]
  rcases htail with rfl | ⟨rest, rfl⟩ | ⟨rest, rfl⟩ <;>
    simp [stripComment, tokens, tokensFrom, isBlank, hne]

/-- A blank before a token separates it and is no part of it. -/
theorem tokens_stripComment_blank (cs : List Char) : tokens (stripComment (' ' :: cs)) = tokens (stripComment cs) := by
  simp [stripComment, tokens, tokensFrom, isBlank]

theorem not_separator_of_isHexChar {c : Char} (h : isHexChar c = true) : c ∉ [' ', '\t', '\r', '\n', ';'] := by
  have hsep : ∀ c ∈ [' ', '\t', '\r', '\n', ';'], hexDigit c = none := by simp [hexDigit]
  intro hmem
  simp [isHexChar_eq_isSome, hsep c hmem] at h

theorem isOneToken_of_isOperandToken {t : List Char} (h : isOperandToken t = true) : isOneToken t = true := by
  unfold isOperandToken at h
  split at h
  case h_3 => cases h
  all_goals
    have hsep := (Bool.and_eq_true_iff.mp h).imp not_separator_of_isHexChar not_separator_of_isHexChar
    simpa [isOneToken] using hsep

theorem isOperandToken_pair {a b : Char} (h : isHexChar a = true ∧ isHexChar b = true) :
    isOperandToken [a, b] = true := by
  simp [isOperandToken, h]

/-- The tokens of a line that begins with digit pairs, each with a blank after it. -/
theorem tokens_stripComment_pairs (good : List (Char × Char)) (cs : List Char)
    (h : ∀ d ∈ good, isHexChar d.1 = true ∧ isHexChar d.2 = true) :
    tokens (stripComment (good.flatMap (fun d => [d.1, d.2, ' ']) ++ cs)) =
      good.map (fun d => [d.1, d.2]) ++ tokens (stripComment cs) := by
  induction good with
  | nil => rfl
  | cons d ds ih =>
    rw [List.forall_mem_cons] at h
    have hd : isOneToken [d.1, d.2] = true := isOneToken_of_isOperandToken (isOperandToken_pair h.1)
    have htoken := tokens_stripComment_token hd (.inr (.inl ⟨ds.flatMap (fun d => [d.1, d.2, ' ']) ++ cs, rfl⟩))
    simpa [tokens_stripComment_blank, ih h.2] using htoken

/-! ### Lines -/

theorem parseLine_of_tokens {cs m : List Char} {args : List (List Char)} (h : tokens (stripComment cs) = m :: args) :
    parseLine cs = (parseTokens m args).map some := by
  rw [parseLine, h]
  cases hl : parseTokens m args <;> simp [hl, Except.map]

/-- A line of the mnemonic `m` and what stands after a blank. -/
theorem parseLine_mnemonic {m : List Char} (hm : isOneToken m = true) (cs : List Char) :
    parseLine (m ++ ' ' :: cs) = (parseTokens m (tokens (stripComment cs))).map some := by
  apply parseLine_of_tokens
  rw [tokens_stripComment_token hm (.inr (.inl ⟨cs, rfl⟩)), tokens_stripComment_blank]

theorem parseTokens_data (args : List (List Char)) : parseTokens ['D', 'A', 'T', 'A'] args = parseData args := rfl

theorem parseTokens_send (args : List (List Char)) : parseTokens ['S', 'E', 'N', 'D'] args = parseSend args := rfl

theorem parseLine_data {t tail : List Char} (ht : isOneToken t = true) (htail : EndsToken tail)
    (hrest : tokens (stripComment tail) = []) :
    parseLine (['D', 'A', 'T', 'A', ' '] ++ t ++ tail) = (parseData [t]).map some := by
  have h := parseLine_mnemonic (m := ['D', 'A', 'T', 'A']) (by decide) (t ++ tail)
  rw [tokens_stripComment_token ht htail, hrest, parseTokens_data] at h
  simpa using h

theorem hexByte_eq_none {t : List Char} (h : isOperandToken t = false) : hexByte t = none := by
  rw [← Option.isSome_eq_false_iff.trans Option.isNone_iff_eq_none, hexByte_isSome, h]

theorem parseData_malformed {t : List Char} (h : isOperandToken t = false) :
    parseData [t] = .error (.malformedOperand t) := by
  simp [parseData, hexByte_eq_none h]

/-- The first malformed operand is the one reported. -/
theorem hexBytes_malformed {good : List (List Char)} {t : List Char} (more : List (List Char))
    (hgood : ∀ g ∈ good, isOperandToken g = true) (ht : isOperandToken t = false) :
    hexBytes (good ++ t :: more) = .error (.malformedOperand t) := by
  induction good with
  | nil => simp [hexBytes, hexByte_eq_none ht]
  | cons g gs ih =>
    rw [List.forall_mem_cons] at hgood
    obtain ⟨n, hn⟩ := Option.isSome_iff_exists.mp ((hexByte_isSome g).trans hgood.1)
    simp [hexBytes, hn, ih hgood.2]

theorem parseLine_send_malformed {good : List (Char × Char)} {t tail : List Char}
    (hgood : ∀ d ∈ good, isHexChar d.1 = true ∧ isHexChar d.2 = true)
    (ht : isOneToken t = true) (hop : isOperandToken t = false) (htail : EndsToken tail) :
    parseLine (['S', 'E', 'N', 'D', ' '] ++ good.flatMap (fun d => [d.1, d.2, ' ']) ++ t ++ tail) =
      .error (.malformedOperand t) := by
  have h := parseLine_mnemonic (m := ['S', 'E', 'N', 'D']) (by decide)
    (good.flatMap (fun d => [d.1, d.2, ' ']) ++ (t ++ tail))
  have hpairs : ∀ g ∈ good.map (fun d => [d.1, d.2]), isOperandToken g = true :=
    List.forall_mem_map.mpr fun d hd => isOperandToken_pair (hgood d hd)
  rw [tokens_stripComment_pairs good _ hgood, tokens_stripComment_token ht htail, parseTokens_send, parseSend,
    hexBytes_malformed _ hpairs hop] at h
  simpa [Except.map] using h

/-! ### The operands that the reader answers -/

/-- The operands of a DATA or SEND line. -/
def AsmLine.operands : AsmLine → List Nat
  | .data n => [n]
  | .send ns => ns
  | .start | .endLine | .rawWord _ => []

theorem hexBytes_le {ts : List (List Char)} {ns : List Nat} (h : hexBytes ts = .ok ns) : ∀ n ∈ ns, n ≤ 255 := by
  induction ts generalizing ns with
  | nil => cases h; simp
  | cons t ts ih =>
    unfold hexBytes at h
    split at h
    · cases h
    · next n hn =>
      split at h
      · cases h
      · next ms hms =>
        cases h
        exact List.forall_mem_cons.mpr ⟨hexByte_le hn, ih hms⟩

theorem parseData_operands {args : List (List Char)} {l : AsmLine} (h : parseData args = .ok l) :
    ∀ n ∈ l.operands, n ≤ 255 := by
  unfold parseData at h
  split at h
  · split at h
    · next n hn =>
      cases h
      simpa [AsmLine.operands] using hexByte_le hn
    · cases h
  · cases h

theorem parseSend_operands {args : List (List Char)} {l : AsmLine} (h : parseSend args = .ok l) :
    ∀ n ∈ l.operands, n ≤ 255 := by
  unfold parseSend at h
  split at h
  · next ns hns =>
    cases h
    exact hexBytes_le hns
  · cases h

theorem parseWord_operands {args : List (List Char)} {l : AsmLine} (h : parseWord args = .ok l) : l.operands = [] := by
  unfold parseWord at h
  split at h
  · split at h
    · cases h; rfl
    · cases h
  · cases h

theorem parsePlain_eq {l l' : AsmLine} {args : List (List Char)} (h : parsePlain l args = .ok l') : l' = l := by
  unfold parsePlain at h
  split at h <;> cases h
  rfl

theorem parseTokens_operands {m : List Char} {args : List (List Char)} {l : AsmLine} (h : parseTokens m args = .ok l) :
    ∀ n ∈ l.operands, n ≤ 255 := by
  unfold parseTokens at h
  split_ifs at h
  · simp [parsePlain_eq h, AsmLine.operands]
  · exact parseData_operands h
  · simp [parsePlain_eq h, AsmLine.operands]
  · exact parseSend_operands h
  · simp [parseWord_operands h]

theorem parseLine_operands {cs : List Char} {l : AsmLine} (h : parseLine cs = .ok (some l)) :
    ∀ n ∈ l.operands, n ≤ 255 := by
  unfold parseLine at h
  split at h
  · cases h
  · split at h
    · next hl =>
      cases h
      exact parseTokens_operands hl
    · cases h

end Sys2Proof.Machine
end

section
/-! SUPPORT. Whole texts: those that a malformed operand refuses, and those of one line (30_encoding R77; 60_exceptions
R128). -/

namespace Sys2Proof.Machine

/-- A text is refused for its first line that cannot be read. -/
theorem assembleText_refused {lead text : List Char} {e : AsmError} (hlead : ReadableLead lead)
    (h : parseLine (text.takeWhile (fun c => c != '\n')) = .error e) : assembleText (lead ++ text) = .error e := by
  obtain ⟨rest, hfirst⟩ := linesFrom_first [] text
  have hparse : parseLines (linesFrom [] text) = .error e := by
    rw [hfirst]
    simp [parseLines, h]
  rcases hlead with rfl | ⟨before, lines, rfl, hbefore⟩
  · simp [assembleText, hparse]
  · rw [List.append_assoc, List.singleton_append, assembleText, linesFrom_append_newline,
      parseLines_append_error hbefore hparse]

theorem endsToken_of_endsOperand {tail : List Char} (h : EndsOperand tail) :
    EndsToken (tail.takeWhile (fun c => c != '\n')) ∧
      tokens (stripComment (tail.takeWhile (fun c => c != '\n'))) = [] := by
  rcases h with rfl | ⟨rest, rfl⟩ | ⟨rest, rfl⟩ <;> simp [EndsToken, stripComment, tokens, tokensFrom]

theorem takeWhile_newline_append {cs : List Char} (tail : List Char) (h : '\n' ∉ cs) :
    (cs ++ tail).takeWhile (fun c => c != '\n') = cs ++ tail.takeWhile (fun c => c != '\n') :=
  List.takeWhile_append_of_pos fun c hc => by simpa using fun hn : c = '\n' => h (hn ▸ hc)

theorem newline_not_mem_of_isOneToken {t : List Char} (h : isOneToken t = true) : '\n' ∉ t :=
  fun hmem => ((isOneToken_iff.mp h).2 _ hmem).2.1 rfl

theorem assembleText_data_malformed {lead t tail : List Char} (hlead : ReadableLead lead) (ht : isOneToken t = true)
    (hop : isOperandToken t = false) (htail : EndsOperand tail) :
    assembleText (lead ++ ['D', 'A', 'T', 'A', ' '] ++ t ++ tail) = .error (.malformedOperand t) := by
  have hline : '\n' ∉ ['D', 'A', 'T', 'A', ' '] ++ t := by simp [newline_not_mem_of_isOneToken ht]
  obtain ⟨hends, hnone⟩ := endsToken_of_endsOperand htail
  rw [List.append_assoc, List.append_assoc]
  apply assembleText_refused hlead
  rw [← List.append_assoc, takeWhile_newline_append tail hline, parseLine_data ht hends hnone,
    parseData_malformed hop]
  rfl

theorem assembleText_send_malformed {lead t tail : List Char} {good : List (Char × Char)} (hlead : ReadableLead lead)
    (hgood : ∀ d ∈ good, isHexChar d.1 = true ∧ isHexChar d.2 = true) (ht : isOneToken t = true)
    (hop : isOperandToken t = false) (htail : EndsOperand tail ∨ ∃ rest, tail = ' ' :: rest) :
    assembleText (lead ++ ['S', 'E', 'N', 'D', ' '] ++ good.flatMap (fun d => [d.1, d.2, ' ']) ++ t ++ tail) =
      .error (.malformedOperand t) := by
  have hline : '\n' ∉ ['S', 'E', 'N', 'D', ' '] ++ good.flatMap (fun d => [d.1, d.2, ' ']) ++ t := by
    have hpairs : ∀ d ∈ good, '\n' ∉ [d.1, d.2] := fun d hd =>
      newline_not_mem_of_isOneToken (isOneToken_of_isOperandToken (isOperandToken_pair (hgood d hd)))
    simpa [newline_not_mem_of_isOneToken ht] using hpairs
  have hends : EndsToken (tail.takeWhile (fun c => c != '\n')) := by
    rcases htail with h | ⟨rest, rfl⟩
    · exact (endsToken_of_endsOperand h).1
    · exact .inr (.inl ⟨rest.takeWhile (fun c => c != '\n'), by simp⟩)
  rw [List.append_assoc, List.append_assoc, List.append_assoc]
  apply assembleText_refused hlead
  rw [← List.append_assoc, ← List.append_assoc, takeWhile_newline_append tail hline]
  exact parseLine_send_malformed hgood ht hop hends

/-- Settles O58: the line of the malformed token is refused, with that token, and the text with it; and every operand that
the reader answers is two hex digits. -/
theorem malformedOperandTokensRefuseTheText : Obligations.MalformedOperandTokensRefuseTheText := by
  refine ⟨fun lead t tail hlead ht hop => ⟨assembleText_data_malformed hlead ht hop, ?_⟩, fun cs => ⟨?_, ?_⟩⟩
  · intro htail good hgood
    exact assembleText_send_malformed hlead hgood ht hop htail
  · intro n h
    exact parseLine_operands h n (by simp [AsmLine.operands])
  · intro ns h
    exact parseLine_operands h

theorem linesFrom_of_no_newline {cs : List Char} (cur : List Char) (h : '\n' ∉ cs) :
    linesFrom cur cs = [cur.reverse ++ cs] := by
  induction cs generalizing cur with
  | nil => simp [linesFrom]
  | cons c cs ih =>
    obtain ⟨hc, hcs⟩ := List.ne_and_not_mem_of_not_mem_cons h
    simp [linesFrom, Ne.symm hc, ih _ hcs]

/-- The text of one readable line assembles to that line's words. -/
theorem assembleText_line {cs : List Char} {l : AsmLine} (hcs : '\n' ∉ cs) (h : parseLine cs = .ok (some l)) :
    assembleText cs = assemble [l] := by
  simp [assembleText, linesFrom_of_no_newline [] hcs, parseLines, h]

theorem hexByte_of_digits {zx : List Char} {a b : Char} {i j : Nat} (hzx : zx = [] ∨ zx = ['0', 'x'])
    (ha : hexDigit a = some i) (hb : hexDigit b = some j) : hexByte (zx ++ [a, b]) = some (16 * i + j) := by
  rcases hzx with rfl | rfl <;> exact hexPair_of_digits ha hb

/-- Settles O59: the token of the line is the operand of the two digits, and nothing after it is one. -/
theorem dataLineTextIsRead : Obligations.DataLineTextIsRead := by
  refine ⟨by decide, by decide, by decide, fun c hc => ?_, ?_⟩
  · rw [isHexChar_eq_isSome] at hc
    simpa using hc
  · intro i j a b zx tail ha hb hzx htail hnl
    rw [← hexDigit_eq_some_iff] at ha hb
    have hbyte := hexByte_of_digits hzx ha hb
    have ht : isOneToken (zx ++ [a, b]) = true :=
      isOneToken_of_isOperandToken (by rw [← hexByte_isSome, hbyte]; rfl)
    obtain ⟨hends, hnone⟩ : EndsToken tail ∧ tokens (stripComment tail) = [] := by
      rcases htail with rfl | ⟨rest, rfl⟩ | ⟨rest, rfl⟩ <;>
        simp [EndsToken, stripComment, tokens, tokensFrom, isBlank]
    have hline : parseLine (['D', 'A', 'T', 'A', ' '] ++ zx ++ [a, b] ++ tail) = .ok (some (.data (16 * i + j))) := by
      rw [List.append_assoc _ zx, parseLine_data ht hends hnone, parseData, hbyte]
      rfl
    refine ⟨hline, ?_⟩
    have hnl' : '\n' ∉ ['D', 'A', 'T', 'A', ' '] ++ zx ++ [a, b] ++ tail := by
      have htoken := newline_not_mem_of_isOneToken ht
      simp_all
    have hwords : assembleLine (.data (16 * i + j)) = .ok _ :=
      dataWords_in_range [16 * i + j] (by simpa using hexByte_le hbyte)
    rw [assembleText_line hnl' hline, BitVec.zero_or, ← encode_data_ofNat (hexByte_le hbyte)]
    simp [assemble, hwords]

end Sys2Proof.Machine
end

section
/-! SUPPORT. The complement, and the checksum as a sum modulo 256 and as an 8-bit accumulation (40_pure_functions R80 to
R82). -/

namespace Sys2Proof.Machine

/-! ### The complement -/

theorem complement_toNat (v : Byte) : (complement v).toNat = 255 - v.toNat := BitVec.toNat_not

theorem complement_eq_xor (v : Byte) : complement v = v ^^^ 0xFF := BitVec.xor_allOnes.symm

@[simp] theorem complement_complement (v : Byte) : complement (complement v) = v := BitVec.not_not

/-- `v = 255 - v` has no integer solution (R80). -/
theorem complement_ne_self (v : Byte) : complement v ≠ v := by
  intro h
  have hv : 255 - v.toNat = v.toNat := (complement_toNat v).symm.trans (congrArg BitVec.toNat h)
  omega

theorem complement_eq_iff {v b : Byte} : complement v = b ↔ v = complement b :=
  ⟨fun h => by rw [← h, complement_complement], fun h => by rw [h, complement_complement]⟩

/-- Settles O39: each clause is a law of the complement. -/
theorem complementUnit : Obligations.ComplementUnit := fun v =>
  ⟨rfl, complement_toNat v, complement_eq_xor v, complement_ne_self v, complement_complement v, rfl⟩

/-! ### The checksum -/

theorem checksum_toNat (ops : List Byte) : (checksum ops).toNat = opcodeSum ops % 256 := by
  simp [checksum]

theorem checksum_eq_zero_iff (ops : List Byte) : checksum ops = 0 ↔ 256 ∣ opcodeSum ops := by
  rw [BitVec.toNat_eq, checksum_toNat, Nat.dvd_iff_mod_eq_zero]
  rfl

/-- Settles O40: the AND with `0xFF` keeps the low eight bits of the sum, which are its residue modulo 256. -/
theorem checksumIsTheSumModulo256 : Obligations.ChecksumIsTheSumModulo256 := by
  refine ⟨rfl, rfl, fun ops => ⟨checksum_toNat ops, ?_, (checksum_eq_zero_iff ops).symm⟩⟩
  exact (checksum_toNat ops).trans (Nat.and_two_pow_sub_one_eq_mod _ 8).symm

theorem acc8_snoc (us : List Byte) (v : Byte) : acc8 (us ++ [v]) = acc8 us + v := by
  simp [acc8]

/-- Settles O41, by induction on the list from its end: one more opcode `v` adds `v` to both sides. -/
theorem wrappingAccumulationIsTheChecksum : Obligations.WrappingAccumulationIsTheChecksum := by
  intro ops
  induction ops using List.reverseRecOn with
  | nil => rfl
  | append_singleton us v ih => rw [acc8_snoc, ih, checksum_snoc]

end Sys2Proof.Machine
end

section
/-! SUPPORT. `encode` as a function of the opcode list: its closed form, its injectivity, and what a second encoding
gives (40_pure_functions R83, R87, R88). -/

namespace Sys2Proof.Machine

/-- Settles O42: the loop appends the pairs of the opcodes, and its accumulator is their sum. -/
theorem encodeHasItsClosedForm : Obligations.EncodeHasItsClosedForm := by
  intro ops
  rw [encodePacket_eq, pairs_append, ← List.append_assoc]
  rfl

theorem encodePacket_length (ops : List Byte) : (encodePacket ops).length = 2 * ops.length + 5 :=
  (packetLayoutByOffset ops).1

/-- Entry `i` of a list stands at offset `2 * i` of its pairs. -/
theorem pairs_injective : Function.Injective pairs := fun us vs h =>
  List.ext_getElem? fun i => by rw [← pairs_getElem?_even, h, pairs_getElem?_even]

/-- Settles O44: a packet determines its pairs, hence the opcodes followed by the checksum, hence the opcodes. -/
theorem encodeIsInjective : Obligations.EncodeIsInjective := by
  intro xs ys h
  rw [encodePacket_eq, encodePacket_eq, List.append_right_inj] at h
  exact (List.append_singleton_inj.mp (pairs_injective h)).1

/-- Settles O45: the lengths differ. -/
theorem encodeIsNotIdempotent : Obligations.EncodeIsNotIdempotent := by
  intro ops
  have hlen : (encodePacket (encodePacket ops)).length = 2 * (2 * ops.length + 5) + 5 := by
    rw [encodePacket_length, encodePacket_length]
  refine ⟨hlen, fun h => ?_⟩
  rw [h, encodePacket_length] at hlen
  omega

end Sys2Proof.Machine
end

section
/-! SUPPORT. Where the preamble stands in a packet again: only from the complement of a pair onward, since a pair that
starts with `55` goes on with `AA` (40_pure_functions R89). -/

namespace Sys2Proof.Machine

theorem preamble_prefix_drop_iff (bs : List Byte) (j : Nat) :
    [0x55, 0xFF, 0x00] <+: bs.drop j ↔ bs[j]? = some 0x55 ∧ bs[j + 1]? = some 0xFF ∧ bs[j + 2]? = some 0x00 := by
  rw [List.prefix_iff_getElem?]
  constructor
  · intro h
    have h0 := h 0 (by decide)
    have h1 := h 1 (by decide)
    have h2 := h 2 (by decide)
    rw [List.getElem?_drop] at h0 h1 h2
    exact ⟨h0, h1, h2⟩
  · rintro ⟨h0, h1, h2⟩ i hi
    rw [List.getElem?_drop]
    match i, hi with
    | 0, _ => exact h0
    | 1, _ => exact h1
    | 2, _ => exact h2

/-- The bytes `FF` and `00` of the preamble itself start no second one. -/
theorem not_preamble_inside_preamble (ops : List Byte) {j : Nat} (hj : j = 1 ∨ j = 2) :
    ¬ [0x55, 0xFF, 0x00] <+: (encodePacket ops).drop j := by
  rw [encodePacket_eq, preamble_prefix_drop_iff]
  rcases hj with rfl | rfl <;> simp [preamble]

/-- At the first byte of a pair: the byte after `55` is its complement `AA`, not `FF`. -/
theorem not_preamble_at_byte (ops : List Byte) (k : Nat) :
    ¬ [0x55, 0xFF, 0x00] <+: (encodePacket ops).drop (3 + 2 * k) := by
  rw [preamble_prefix_drop_iff, show 3 + 2 * k + 1 = 4 + 2 * k by omega, encodePacket_getElem?_byte,
    encodePacket_getElem?_complement]
  rintro ⟨hbyte, hcomplement, -⟩
  rw [hbyte] at hcomplement
  exact absurd hcomplement (by decide)

/-- At the second byte of a pair: `55` is the complement of `AA`, and `FF 00` is the pair of `FF`. -/
theorem preamble_at_complement_iff (ops : List Byte) (k : Nat) :
    [0x55, 0xFF, 0x00] <+: (encodePacket ops).drop (4 + 2 * k) ↔
      (ops ++ [checksum ops])[k]? = some 0xAA ∧ (ops ++ [checksum ops])[k + 1]? = some 0xFF := by
  rw [preamble_prefix_drop_iff, show 4 + 2 * k + 1 = 3 + 2 * (k + 1) by omega,
    show 4 + 2 * k + 2 = 4 + 2 * (k + 1) by omega, encodePacket_getElem?_complement, encodePacket_getElem?_byte,
    encodePacket_getElem?_complement]
  constructor
  · rintro ⟨h55, hFF, -⟩
    obtain ⟨v, hv, hcomplement⟩ := Option.map_eq_some_iff.mp h55
    exact ⟨hv.trans (congrArg some (complement_eq_iff.mp hcomplement)), hFF⟩
  · rintro ⟨hAA, hFF⟩
    rw [hAA, hFF]
    exact ⟨rfl, rfl, rfl⟩

theorem eq_pair_offset {j : Nat} (hj : 3 ≤ j) : ∃ k, j = 3 + 2 * k ∨ j = 4 + 2 * k :=
  ⟨(j - 3) / 2, by omega⟩

theorem preamble_recurs_iff (ops : List Byte) :
    (∃ j, 1 ≤ j ∧ [0x55, 0xFF, 0x00] <+: (encodePacket ops).drop j) ↔
      ∃ k : Nat, (ops ++ [checksum ops])[k]? = some 0xAA ∧ (ops ++ [checksum ops])[k + 1]? = some 0xFF := by
  constructor
  · rintro ⟨j, hj, hprefix⟩
    have hpreamble : ¬ (j = 1 ∨ j = 2) := fun h => not_preamble_inside_preamble ops h hprefix
    obtain ⟨k, rfl | rfl⟩ := eq_pair_offset (j := j) (by omega)
    · exact absurd hprefix (not_preamble_at_byte ops k)
    · exact ⟨k, (preamble_at_complement_iff ops k).mp hprefix⟩
  · rintro ⟨k, h⟩
    exact ⟨4 + 2 * k, by omega, (preamble_at_complement_iff ops k).mpr h⟩

/-- Neighbours in a list with one entry `c` appended: both in the list, or its last entry and `c`. -/
theorem neighbours_in_concat_iff {α : Type} (us : List α) (a b c : α) (k : Nat) :
    (us ++ [c])[k]? = some a ∧ (us ++ [c])[k + 1]? = some b ↔
      us[k]? = some a ∧ (us[k + 1]? = some b ∨ (k + 1 = us.length ∧ c = b)) := by
  rcases lt_trichotomy (k + 1) us.length with hinside | hlast | hbeyond
  · rw [List.getElem?_append_left (by omega), List.getElem?_append_left hinside]
    simp [hinside.ne]
  · rw [List.getElem?_append_left (by omega), hlast]
    simp
  · have hnone : (us ++ [c])[k + 1]? = none := List.getElem?_eq_none (by simpa using hbeyond)
    simp [hnone, List.getElem?_eq_none hbeyond.le, hbeyond.ne']

/-- Equal opcodes put the byte at the odd offsets from 3 onward, and its complement at the even ones. -/
theorem exists_packet_with_byte_at (b : Byte) {j : Nat} (hj : 3 ≤ j) : ∃ ops, (encodePacket ops)[j]? = some b := by
  obtain ⟨k, rfl | rfl⟩ := eq_pair_offset hj
  · refine ⟨List.replicate (k + 1) b, ?_⟩
    rw [encodePacket_getElem?_byte, List.getElem?_append_left (by simp)]
    simp
  · refine ⟨List.replicate (k + 1) (complement b), ?_⟩
    rw [encodePacket_getElem?_complement, List.getElem?_append_left (by simp)]
    simp

/-- Settles O46: `AA` and `FF` are neighbours among the opcodes followed by the checksum. -/
theorem preambleRecursExactlyAfterAA : Obligations.PreambleRecursExactlyAfterAA :=
  ⟨fun ops => (preamble_recurs_iff ops).trans (exists_congr (neighbours_in_concat_iff ops _ _ _)),
    fun b _ hj => exists_packet_with_byte_at b hj⟩

end Sys2Proof.Machine
end

section
/-! SUPPORT. The results of `encode_checked`, in its order of checks (40_pure_functions R85). -/

namespace Sys2Proof.Machine

theorem firstInvalid_eq_findIdx? (i : Nat) (xs : List Nat) :
    firstInvalid i xs = (xs.findIdx? (fun x => !opcodeInRange x)).map (· + i) := by
  induction xs generalizing i with
  | nil => rfl
  | cons x xs ih =>
    cases hx : opcodeInRange x with
    | true => simp [firstInvalid, List.findIdx?_cons, hx, ih, Function.comp_def, Nat.add_assoc, Nat.add_comm 1]
    | false => simp [firstInvalid, List.findIdx?_cons, hx]

theorem firstInvalid_zero (xs : List Nat) : firstInvalid 0 xs = xs.findIdx? (fun x => !opcodeInRange x) := by
  simp [firstInvalid_eq_findIdx?]

theorem firstInvalid_eq_none {xs : List Nat} (h : ∀ x ∈ xs, x ≤ 255) : firstInvalid 0 xs = none := by
  simpa [firstInvalid_zero, opcodeInRange] using h

theorem firstInvalid_eq_some {xs : List Nat} {i x : Nat} (hx : xs[i]? = some x) (hbig : 255 < x)
    (hfirst : ∀ j y, j < i → xs[j]? = some y → y ≤ 255) : firstInvalid 0 xs = some i := by
  obtain ⟨hi, rfl⟩ := List.getElem?_eq_some_iff.mp hx
  rw [firstInvalid_zero, List.findIdx?_eq_some_iff_getElem]
  refine ⟨hi, by simpa [opcodeInRange] using hbig, fun j hj => ?_⟩
  simpa [opcodeInRange] using hfirst j _ hj (List.getElem?_eq_getElem (hj.trans hi))

/-- Settles O47: the range check comes first, then emptiness under REJECT. -/
theorem encodeCheckedResults : Obligations.EncodeCheckedResults := by
  intro xs p
  refine ⟨fun i x hx hbig hfirst => ?_, ?_, fun hrange hok => ?_⟩
  · simp [encodeChecked, firstInvalid_eq_some hx hbig hfirst]
  · rintro rfl rfl
    rfl
  · have hpasses : ¬ (xs = [] ∧ p = .reject) := by
      rintro ⟨hempty, rfl⟩
      exact hok.elim (· hempty) nofun
    simp [encodeChecked, firstInvalid_eq_none hrange, hpasses]

end Sys2Proof.Machine
end

section
/-! SUPPORT. The four commands one by one: the words of each, its next state on every path, and its frame (41_commands R100
to R104). -/

namespace Sys2Proof.Machine

/-! ### The words of a command -/

/-- Of the names in the pattern table DATA's alone stands for more than one command (R61). -/
theorem eq_of_mnemonic_eq {i j : Instr} (hi : ∀ v, i ≠ .data v) (h : j.mnemonic = i.mnemonic) : j = i := by
  cases i with
  | data v => exact absurd rfl (hi v)
  | start | endCmd | reserved => cases j <;> simp [Instr.mnemonic] at h ⊢

/-- A word that a row of the pattern table selects decodes to the command which that row names (R61). -/
theorem decode_of_and_mask {r : EncodingRow} {i : Instr} {w : CommandWord} (hr : r ∈ encodingTable)
    (hname : i.mnemonic = r.mnemonic) (hi : ∀ v, i ≠ .data v) (h : w &&& r.mask = r.pattern) : decode w = i := by
  obtain ⟨r', -, -, hdec, huniq⟩ := exactlyOnePatternRowSelectsEachWord w
  obtain rfl : r = r' := huniq r hr (beq_iff_eq.mpr h)
  exact eq_of_mnemonic_eq hi (hdec.trans hname.symm)

/-! ### Every path of a command -/

/-- Settles O9: the gate, the phase check that fails, and the opening of a packet. -/
theorem startOpensAPacket : Obligations.StartOpensAPacket := by
  refine ⟨fun w => ?_, rfl, fun s => ⟨exec_of_fault _, ?_, exec_start_of_idle⟩⟩
  · exact decode_of_and_mask (r := ⟨"START", 0x100, 0x300⟩) (by decide) rfl nofun
  · exact fun hf hp => exec_of_raises hf (.inr (.inl ⟨rfl, rfl, hp⟩))

/-- Settles O10: the gate, the phase check that fails, and the pair with or without the preamble before it. -/
theorem dataAddsOneOpcode : Obligations.DataAddsOneOpcode := by
  refine fun v => ⟨decode_data v, rfl, fun s => ⟨exec_of_fault _, ?_, ?_, ?_⟩⟩
  · exact fun hf hp => exec_of_raises hf (.inr (.inr (.inl ⟨rfl, hp, .inr ⟨v, rfl⟩⟩)))
  · intro hf hp hd
    rw [exec_data_of_opened v hf hp]
    simp [accumulate, emit, dataBytes, dataOperand, preamble, pair, complement, hd]
  · intro hf hp hd
    simp [exec_data_of_data v hf hp hd, hd]

/-- Settles O11: the gate, the two checks that fail, and the checksum pair with or without the preamble before it. -/
theorem endClosesThePacket : Obligations.EndClosesThePacket := by
  refine ⟨fun w => ?_, rfl, fun s => ⟨exec_of_fault _, ?_, ?_, ?_, ?_⟩⟩
  · exact decode_of_and_mask (r := ⟨"END", 0x200, 0x300⟩) (by decide) rfl nofun
  · exact fun hf hp => exec_of_raises hf (.inr (.inr (.inl ⟨rfl, hp, .inl rfl⟩)))
  · intro hf hp hd
    rw [exec_end_of_opened hf hp (by simp [emptyRejected, hd])]
    simp [closePacket, emit, endBytes, endOperand, pair, complement, hd]
  · intro hf hp hd hpol
    exact exec_of_raises hf (.inr (.inr (.inr ⟨rfl, rfl, hp, by simp [emptyRejected, hd, hpol]⟩)))
  · intro hf hp hd hpol
    rw [exec_end_of_opened hf hp (by simp [emptyRejected, hpol])]
    simp [closePacket, emit, endBytes, endOperand, preamble, pair, complement, hd]

/-- Settles O12: past the gate the reserved kind has one path. -/
theorem reservedKindFaults : Obligations.ReservedKindFaults := by
  refine ⟨fun w => ?_, fun s => ⟨exec_of_fault _, fun hf => exec_of_raises hf (.inl ⟨rfl, rfl⟩)⟩⟩
  exact decode_of_and_mask (r := ⟨"RESERVED", 0x300, 0x300⟩) (by decide) rfl nofun

/-! ### What a command leaves unchanged -/

theorem not_raises_start_of_idle {s : State} (hp : s.phase = .idle) (c : Cause) : ¬ Raises .start s c := by
  simp [Raises, hp]

/-- Settles O15: START and RESERVED are discarded, raise a fault, or open a packet; none of these emits. -/
theorem frameOfCommandsThatEmitNothing : Obligations.FrameOfCommandsThatEmitNothing := by
  intro i s t hi h
  rcases exec_cases h with ⟨-, rfl⟩ | ⟨-, c, hr, rfl⟩ | ⟨-, hp, rfl, rfl⟩ | ⟨-, -, v, rfl, -⟩ | ⟨-, -, rfl, -⟩
  · simp
  · refine ⟨rfl, rfl, rfl, ?_, fun _ => ⟨rfl, rfl, rfl⟩⟩
    rintro rfl hidle
    exact absurd hr (not_raises_start_of_idle hidle c)
  · simp [hp]
  · simp at hi
  · simp at hi

/-- Settles O16: DATA and END only append to `wire`, and of their outcomes a raised fault alone writes the cause. -/
theorem frameOfCommandsThatEmit : Obligations.FrameOfCommandsThatEmit := by
  intro i s t hi h
  refine ⟨fun n hn => ?_, exec_emptyPolicy h, exec_port h, ?_⟩
  · rw [exec_wire h, List.getElem?_append_left hn]
  rcases exec_cases h with ⟨-, rfl⟩ | ⟨hf, c, -, rfl⟩ | ⟨-, -, rfl, -⟩ | ⟨-, -, v, rfl, rfl⟩ | ⟨-, -, rfl, -, rfl⟩
  · simp
  · simp [hf]
  · simp at hi
  · simp
  · simp

/-! ### The bytes that a command emits -/

theorem emitted_eq_of_wire {i : Instr} {s t : State} {bs : List Byte} (h : exec i s = .next t)
    (hw : t.wire = s.wire ++ bs) : emitted i s = bs :=
  List.append_cancel_left ((exec_wire h).symm.trans hw)

theorem emitted_eq_nil {i : Instr} {s t : State} (h : exec i s = .next t) (hw : t.wire = s.wire) : emitted i s = [] :=
  emitted_eq_of_wire h (by simp [hw])

/-- In an open packet without data the accumulator still holds START's zero (R22, R100). -/
theorem State.Inv.acc_of_no_data {s : State} (hs : s.Inv) (hp : s.phase = .opened) (hd : s.hasData = false) :
    s.acc = 0 := by
  obtain ⟨before, ops, -, hacc, hdata⟩ := hs.openPacket hp
  obtain rfl : ops = [] := by simpa [hd] using hdata
  exact hacc

/-- Settles O14: the emit list of each outcome of a command, row by row. -/
theorem bytesAppendedPerCommand : Obligations.BytesAppendedPerCommand := by
  intro i s t h
  refine ⟨exec_wire h, ?_⟩
  rcases exec_cases h with ⟨hf, rfl⟩ | ⟨hf, c, -, rfl⟩ | ⟨hf, hp, rfl, rfl⟩ | ⟨hf, hp, v, rfl, rfl⟩ |
    ⟨hf, hp, rfl, he, rfl⟩
  · simp [hf, emitted_eq_nil h rfl]
  · simp [emitted_eq_nil h rfl]
  · simp [emitted_eq_nil h rfl]
  · have hbytes : emitted (.data v) s = dataBytes v s := emitted_eq_of_wire h rfl
    cases hd : s.hasData <;> simp [hf, hbytes, dataBytes, dataOperand, preamble, pair, complement, hd]
  · have hbytes : emitted .endCmd s = endBytes s := emitted_eq_of_wire h rfl
    cases hd : s.hasData with
    | true => simp [hf, hbytes, endBytes, endOperand, pair, complement, hd]
    | false =>
      have hpol : s.emptyPolicy = .accept := by
        cases hpol : s.emptyPolicy <;> simp [emptyRejected, hd, hpol] at he ⊢
      have hzero (hs : s.Inv) : emitted .endCmd s = [0x55, 0xFF, 0x00, 0x00, 0xFF] := by
        simp [hbytes, endBytes, endOperand, preamble, pair, complement, hd, hs.acc_of_no_data hp hd]
      simpa [hf, hpol] using hzero

end Sys2Proof.Machine
end

section
/-! SUPPORT. Runs of commands against `encode`: a packet, packets one after another, the empty packet, and a packet that a
fault leaves partial (41_commands R103, R110 to R112). -/

namespace Sys2Proof.Machine

/-! ### Commands presented in sequence -/

/-- Once the first commands are taken, the others are presented. -/
theorem presents_append {s : State} {cs ds : List Instr} {rest : List Input} (h : s.presents (cs ++ ds) rest) :
    ∃ p, s.presents cs p ∧ ∀ t : State, t.port = p → t.presents ds rest := by
  obtain ⟨ws, hp, hd⟩ := h
  obtain ⟨us, vs, rfl, hus, hvs⟩ := List.map_eq_append_iff.mp hd
  refine ⟨commandInputs vs ++ rest, ⟨us, ?_, hus⟩, fun t ht => ⟨vs, ht, hvs⟩⟩
  simp [hp, commandInputs]

/-- A run of one command is that command's meaning. -/
theorem runSteps_one_of_presents {s : State} {i : Instr} {rest : List Input} (h : s.presents [i] rest) :
    runSteps 1 s = exec i { s with port := rest } := by
  obtain ⟨p, hstep, hnext⟩ := step_of_presents h
  obtain ⟨t, ht⟩ := exec_completes i { s with port := p }
  obtain rfl : p = rest := (exec_port ht).symm.trans (port_of_presents_nil (hnext t ht))
  exact (runSteps_succ (hstep.trans ht)).trans ht.symm

/-! ### Packets -/

/-- Settles O49: END closes the packet that START and the DATA commands left open, or refuses it. -/
theorem commandSequenceRefinesEncode : Obligations.CommandSequenceRefinesEncode := by
  refine fun s vs rest hf hp h => ⟨runSteps_sendCommands hf hp h, ?_⟩
  rintro rfl hpol
  simpa [raiseFault, State.withOpenPacket] using runSteps_sendCommands_reject hf hp h hpol

/-- Settles O13: the refinement of `encode` at the empty packet. -/
theorem emptyPacketByPolicy : Obligations.EmptyPacketByPolicy := by
  refine ⟨rfl, fun s rest hf hp h => ?_⟩
  obtain ⟨haccept, hreject⟩ := commandSequenceRefinesEncode s [] rest hf hp h
  exact ⟨fun hpol => haccept (.inr hpol), hreject rfl⟩

theorem sendCommands_length (vs : List Byte) : (sendCommands vs).length = vs.length + 2 := by
  simp [sendCommands]

/-- Packets that END takes leave the block idle, as the next packet needs it (R111). -/
theorem runSteps_packets {s : State} {packets : List (List Byte)} {rest : List Input} (hf : s.fault = false)
    (hp : s.phase = .idle) (h : s.presents (packets.flatMap sendCommands) rest)
    (hok : ∀ vs ∈ packets, vs ≠ [] ∨ s.emptyPolicy = .accept) :
    ∃ t, runSteps (packets.flatMap sendCommands).length s = .next t ∧
      t.wire = s.wire ++ packets.flatMap encodePacket ∧ t.phase = .idle ∧ t.fault = false ∧ t.port = rest := by
  induction packets generalizing s with
  | nil => exact ⟨s, rfl, by simp, hp, hf, port_of_presents_nil h⟩
  | cons vs packets ih =>
    rw [List.flatMap_cons] at h
    rw [List.forall_mem_cons] at hok
    obtain ⟨hvs, hpackets⟩ := hok
    obtain ⟨p, hfirst, hothers⟩ := presents_append h
    have hsend := runSteps_sendCommands hf hp hfirst hvs
    obtain ⟨t, hrun, hwire, hend⟩ := ih
      (s := { s with acc := checksum vs, hasData := false, wire := s.wire ++ encodePacket vs, port := p })
      hf hp (hothers _ rfl) hpackets
    refine ⟨t, ?_, by simp [hwire], hend⟩
    rw [List.flatMap_cons, List.length_append, sendCommands_length, runSteps_add hsend, hrun]

/-- Settles O50: the two ways in which no packet is refused are one condition on each packet. -/
theorem backToBackPacketsConcatenate : Obligations.BackToBackPacketsConcatenate := by
  intro s packets rest hf hp h hok
  refine runSteps_packets hf hp h fun vs hvs => ?_
  rcases hok with hpol | hne
  · exact .inr hpol
  · exact .inl (hne vs hvs)

/-! ### A fault inside a packet -/

/-- In an open packet with data START and RESERVED alone raise a fault (R112). -/
theorem fault_inside_packet_iff {i : Instr} {s t : State} (hf : s.fault = false) (hp : s.phase = .opened)
    (hd : s.hasData = true) (h : exec i s = .next t) : t.fault = true ↔ i = .start ∨ i = .reserved := by
  rcases exec_cases h with ⟨hf', -⟩ | ⟨-, c, hr, rfl⟩ | ⟨-, hidle, -⟩ | ⟨-, -, v, rfl, rfl⟩ | ⟨-, -, rfl, -, rfl⟩
  · simp [hf] at hf'
  · rcases hr with ⟨-, rfl⟩ | ⟨-, rfl, -⟩ | ⟨-, hidle, -⟩ | ⟨-, -, -, he⟩
    · simp
    · simp
    · simp [hp] at hidle
    · simp [emptyRejected, hd] at he
  · simp [hp] at hidle
  · simp [hf]
  · simp [hf]

/-- The fault that a second START or a reserved word raises in an open packet. -/
theorem raises_inside_packet {bad : Instr} {s : State} (hbad : bad = .start ∨ bad = .reserved) (hp : s.phase = .opened) :
    Raises bad s (if bad = .start then .protocol else .illegalCmd) := by
  rcases hbad with rfl | rfl
  · exact .inr (.inl ⟨rfl, rfl, hp⟩)
  · exact .inl ⟨rfl, rfl⟩

/-- Settles O51: fault entry writes the two fault fields of the open packet, whose bytes stay as they are. -/
theorem faultInsideAPacketLeavesItPartial : Obligations.FaultInsideAPacketLeavesItPartial := by
  refine ⟨fun i s t => fault_inside_packet_iff, fun s vs bad rest hf hp hvs hbad h => ?_⟩
  obtain ⟨q, hrun, hq⟩ := runSteps_start_data hf hp h
  calc runSteps (vs.length + 2) s = runSteps 1 (s.withOpenPacket vs q) := runSteps_add (k := 1) hrun
    _ = exec bad (s.withOpenPacket vs rest) := runSteps_one_of_presents hq
    _ = .next (raiseFault _ (s.withOpenPacket vs rest)) := exec_of_raises hf (raises_inside_packet hbad rfl)
    _ = _ := by simp [raiseFault, State.withOpenPacket, hvs]

end Sys2Proof.Machine
end

section
/-! SUPPORT. Which commands raise which fault, and the faulted block: every command word is discarded until a reset
(60_exceptions R121 to R129). -/

namespace Sys2Proof.Machine

/-! ### The faulted block -/

theorem step_command_of_fault {s : State} {w : CommandWord} {rest : List Input} (hf : s.fault = true)
    (hp : s.port = .command w :: rest) : step s = .next { s with port := rest } :=
  (step_of_cons hp).trans (exec_of_fault _ hf)

/-- A run of command words empties their part of the port and does nothing else to a faulted block (R123, R124). -/
theorem runSteps_commandInputs_of_fault {s : State} {ws : List CommandWord} {rest : List Input} (hf : s.fault = true)
    (hp : s.port = commandInputs ws ++ rest) : runSteps ws.length s = .next { s with port := rest } := by
  induction ws generalizing s with
  | nil =>
    obtain rfl : s.port = rest := hp
    rfl
  | cons w ws ih => exact (runSteps_succ (step_command_of_fault hf hp)).trans (ih hf rfl)

theorem step_reset {s : State} {rest : List Input} (hp : s.port = .reset :: rest) :
    step s = .next (resetBlock { s with port := rest }) :=
  step_of_cons hp

/-- Settles O21: the faulted block discards the command words by induction on their list, and then the reset is next. -/
theorem faultIsStickyUntilReset : Obligations.FaultIsStickyUntilReset := by
  refine fun s ws rest hf => ⟨runSteps_commandInputs_of_fault hf, fun hp => ?_⟩
  calc runSteps (ws.length + 1) s
      = runSteps 1 { s with port := .reset :: rest } := runSteps_add (runSteps_commandInputs_of_fault hf hp)
    _ = .next (resetBlock { s with port := rest }) := runSteps_succ (step_reset rfl)

/-- Settles O20: a faulted state does not end a run well, and the gate discards the decoded command. -/
theorem faultGateDiscardsEveryWord : Obligations.FaultGateDiscardsEveryWord :=
  fun s hf => ⟨by simp [State.endsWell, hf], fun _ _ => step_command_of_fault hf⟩

/-! ### Every input is taken -/

theorem step_port {s t : State} (h : step s = .next t) : t.port = s.port.tail := by
  rcases step_cases h with ⟨hp, rfl⟩ | ⟨w, rest, hp, he⟩ | ⟨rest, hp, rfl⟩ | ⟨w, k, rest, hp, rfl⟩
  · simp [hp]
  · simp [hp, exec_port he]
  · simp [hp]
  · simp [hp, resetDuring]

/-- Settles O8: no command and no input stops the block. -/
theorem everyCommandIsTaken : Obligations.EveryCommandIsTaken := by
  refine ⟨exec_completes, fun s => ?_⟩
  obtain ⟨t, ht⟩ := step_completes s
  exact ⟨t, ht, step_port ht⟩

/-! ### Fault entry -/

/-- Of the outcomes of a command taken with `fault = 0`, a raised fault alone writes the two fault fields. -/
theorem exec_raises_or_keeps_fault {i : Instr} {s t : State} (hf : s.fault = false) (h : exec i s = .next t) :
    (∃ c, Raises i s c ∧ t = raiseFault c s) ∨ (t.fault = false ∧ t.faultCause = s.faultCause) := by
  rcases exec_cases h with ⟨hf', -⟩ | ⟨-, hr⟩ | ⟨-, -, -, rfl⟩ | ⟨-, -, v, -, rfl⟩ | ⟨-, -, -, -, rfl⟩
  · simp [hf] at hf'
  · exact .inl hr
  · exact .inr ⟨hf, rfl⟩
  · exact .inr ⟨hf, rfl⟩
  · exact .inr ⟨hf, rfl⟩

/-- Settles O19: fault entry writes the two fault fields alone, and no check raises NONE. -/
theorem faultEntryIsPrecise : Obligations.FaultEntryIsPrecise := by
  intro i s t h hf ht
  rcases exec_raises_or_keeps_fault hf h with ⟨c, hr, rfl⟩ | ⟨hnone, -⟩
  · exact ⟨hr.ne_noCause, rfl⟩
  · simp [ht] at hnone

/-- The cause that a command leaves is the one that its checks raise. -/
theorem fault_and_cause_iff_raises {i : Instr} {s t : State} (hf : s.fault = false) (h : exec i s = .next t)
    (c : Cause) : t.fault = true ∧ t.faultCause = c ↔ Raises i s c := by
  constructor
  · rintro ⟨ht, rfl⟩
    rcases exec_raises_or_keeps_fault hf h with ⟨c, hr, rfl⟩ | ⟨hnone, -⟩
    · exact hr
    · simp [ht] at hnone
  · intro hr
    obtain rfl : raiseFault c s = t := by simpa [exec_of_raises hf hr] using h
    exact ⟨rfl, rfl⟩

/-! ### The commands that raise each cause -/

section
variable {i : Instr} {s : State}

theorem raises_illegalCmd_iff : Raises i s .illegalCmd ↔ i = .reserved := by
  simp [Raises]

theorem raises_protocol_iff : Raises i s .protocol ↔
    (i = .start ∧ s.phase = .opened) ∨ (s.phase = .idle ∧ (i = .endCmd ∨ ∃ v, i = .data v)) := by
  simp [Raises]

theorem raises_empty_iff : Raises i s .empty ↔
    i = .endCmd ∧ s.phase = .opened ∧ s.hasData = false ∧ s.emptyPolicy = .reject := by
  simp [Raises, emptyRejected]

/-- START needs an idle block, DATA and END an open packet (R126). -/
theorem raises_protocol_iff_of_ne_reserved (hi : i ≠ .reserved) :
    Raises i s .protocol ↔ (i = .start ↔ s.phase = .opened) := by
  rw [raises_protocol_iff]
  cases i with
  | reserved => exact absurd rfl hi
  | start => simp
  | data v => cases s.phase <;> simp
  | endCmd => cases s.phase <;> simp

/-- Past the phase check, an END has an open packet (R129). -/
theorem raises_empty_iff_of_not_wrong_phase (hphase : ¬ (i = .start ↔ s.phase = .opened)) :
    Raises i s .empty ↔ i = .endCmd ∧ s.hasData = false ∧ s.emptyPolicy = .reject := by
  rw [raises_empty_iff]
  refine and_congr_right ?_
  rintro rfl
  have hopen : s.phase = .opened := by simpa using hphase
  simp [hopen]

end

theorem decode_eq_reserved_iff (w : CommandWord) : decode w = .reserved ↔ kindField w = 0b11#2 := by
  obtain ⟨d, rfl | rfl | rfl | rfl⟩ := commandWord_cases w <;> simp

/-- Settles O23: the reserved kind is the one check that raises this cause, and it looks at KIND alone. -/
theorem illegalCmdRaisedExactly : Obligations.IllegalCmdRaisedExactly := by
  intro s t w rest hf hp h
  rw [step_of_cons hp] at h
  rw [fault_and_cause_iff_raises (by exact hf) h, raises_illegalCmd_iff]
  exact decode_eq_reserved_iff w

/-- Settles O24: the three phase checks are those that raise this cause. -/
theorem protocolRaisedExactly : Obligations.ProtocolRaisedExactly := by
  intro i s t hf h
  rw [fault_and_cause_iff_raises hf h, raises_protocol_iff]
  tauto

/-- Settles O25: END's empty check is the one that raises this cause. -/
theorem emptyRaisedExactly : Obligations.EmptyRaisedExactly :=
  fun _ _ _ hf h => (fault_and_cause_iff_raises hf h .empty).trans raises_empty_iff

/-! ### The order of the checks -/

/-- A command that no check of R125 to R127 stops leaves the two fault fields as they were. -/
theorem exec_keeps_fault_of_not_raises {i : Instr} {s t : State} (hf : s.fault = false) (h : exec i s = .next t)
    (hillegal : ¬ Raises i s .illegalCmd) (hprotocol : ¬ Raises i s .protocol) (hempty : ¬ Raises i s .empty) :
    t.fault = false ∧ t.faultCause = s.faultCause := by
  rcases exec_raises_or_keeps_fault hf h with ⟨c, hr, -⟩ | hkeep
  · cases c with
    | noCause => exact absurd rfl hr.ne_noCause
    | illegalCmd => exact absurd hr hillegal
    | protocol => exact absurd hr hprotocol
    | empty => exact absurd hr hempty
  · exact hkeep

/-- Settles O26: each check is the only one left to raise its cause once those before it have passed. -/
theorem faultPriorityOrder : Obligations.FaultPriorityOrder := by
  intro i s
  obtain ⟨t, h⟩ := exec_completes i s
  refine ⟨t, h, fun hf => by simpa [exec_of_fault i hf] using h.symm, fun hf => ?_⟩
  have hraises := fault_and_cause_iff_raises hf h
  refine ⟨fun hi => (hraises _).mpr (raises_illegalCmd_iff.mpr hi), fun hi => ?_⟩
  have hprotocol := raises_protocol_iff_of_ne_reserved (s := s) hi
  refine ⟨fun hphase => (hraises _).mpr (hprotocol.mpr hphase), fun hphase => ?_⟩
  have hempty := raises_empty_iff_of_not_wrong_phase hphase
  refine ⟨fun hend => (hraises _).mpr (hempty.mpr hend), fun hend => ?_⟩
  exact exec_keeps_fault_of_not_raises hf h (mt raises_illegalCmd_iff.mp hi) (mt hprotocol.mp hphase)
    (mt hempty.mp hend)

end Sys2Proof.Machine
end

section
/-! SUPPORT. Reset between commands, inside a command and inside an open packet (70_reset_and_hazards R150 to R152). -/

namespace Sys2Proof.Machine

/-- Of the outcomes of a command END's alone leaves the open packet, and it ends with the checksum pair (R102). -/
theorem exec_closes_by_end {i : Instr} {s t : State} (h : exec i s = .next t) (hs : s.phase = .opened)
    (ht : t.phase = .idle) : i = .endCmd ∧ t.wire = s.wire ++ endBytes s := by
  rcases exec_cases h with ⟨-, rfl⟩ | ⟨-, c, -, rfl⟩ | ⟨-, hp, -⟩ | ⟨-, -, v, -, rfl⟩ | ⟨-, -, rfl, -, rfl⟩
  · simp [hs] at ht
  · simp [hs] at ht
  · simp [hs] at hp
  · simp [hs] at ht
  · exact ⟨rfl, rfl⟩

/-- Settles O31: the gate keeps a faulted block as it is, and END alone leaves an open packet. -/
theorem resetIsTheOnlyWayOut : Obligations.ResetIsTheOnlyWayOut := by
  refine ⟨fun s rest hp => step_reset hp, fun s t w rest hp h => ?_⟩
  rw [step_of_cons hp] at h
  refine ⟨fun hf => ?_, fun hs ht => ?_⟩
  · obtain rfl : { s with port := rest } = t := by simpa [respond, exec_of_fault _, hf] using h
    exact hf
  · obtain ⟨hi, hwire⟩ := exec_closes_by_end h (by exact hs) ht
    exact ⟨hi, pendingPreamble s, hwire.trans (List.append_assoc ..).symm⟩

/-- Settles O32: the bytes that the cut lets through are the first ones of the command's emit list. -/
theorem resetInsideACommandKeepsAnyPrefix : Obligations.ResetInsideACommandKeepsAnyPrefix := by
  refine ⟨fun s rest hp => ⟨_, step_reset hp, rfl⟩, fun s t w rest bs cut h hwire hcut hp => ?_⟩
  have hemit : emitted (decode w) { s with port := rest } = bs := emitted_eq_of_wire h hwire
  have htake : bs.take cut.length = cut := (List.prefix_iff_eq_take.mp hcut).symm
  rw [step_of_cons hp]
  simp [respond, resetDuring, hemit, htake, resetBlock, emit]

/-- Settles O33: START and the DATA commands leave the packet open with its bytes on `wire`, where the reset leaves them. -/
theorem resetInsideAPacketLeavesItTruncated : Obligations.ResetInsideAPacketLeavesItTruncated := by
  intro s vs rest hf hp hvs h
  obtain ⟨q, hrun, hq⟩ := runSteps_start_data hf hp (cs := []) (by simpa using h)
  calc runSteps (vs.length + 2) s = runSteps 1 (s.withOpenPacket vs q) := runSteps_add (k := 1) hrun
    _ = .next (resetBlock { s.withOpenPacket vs q with port := rest }) :=
      runSteps_succ (step_reset (port_of_presents_nil hq))
    _ = _ := by simp [resetBlock, State.withOpenPacket, hvs]

end Sys2Proof.Machine
end

section
/-! SUPPORT. Runs of commands from an idle block without a fault: the commands of a run without a fault are whole packets
and perhaps an open one (70_reset_and_hazards R155, R158). -/

namespace Sys2Proof.Machine

/-! ### One command, with or without a packet open -/

/-- The idle block `s`, or the same with a packet open that has taken some opcodes; the inputs `p` are presented. -/
def State.withPacket (s : State) : Option (List Byte) → List Input → State
  | none, p => { s with port := p }
  | some ops, p => s.withOpenPacket ops p

/-- The commands that the open packet, if there is one, has taken. -/
def openCommands : Option (List Byte) → List Instr
  | none => []
  | some ops => .start :: ops.map Instr.data

/-- The idle block `s` once END has closed a packet of the opcodes `ops` (R102). -/
def State.afterPacket (s : State) (ops : List Byte) : State :=
  { s with acc := checksum ops, hasData := false, wire := s.wire ++ encodePacket ops }

@[simp] theorem afterPacket_wire (s : State) (ops : List Byte) : (s.afterPacket ops).wire = s.wire ++ encodePacket ops :=
  rfl

section
variable (s : State) (o : Option (List Byte)) (p : List Input)

@[simp] theorem withPacket_fault : (s.withPacket o p).fault = s.fault := by cases o <;> rfl

theorem withPacket_with_port (q : List Input) : { s.withPacket o p with port := q } = s.withPacket o q := by
  cases o <;> rfl

end

section
variable {s t : State} {o : Option (List Byte)} {p : List Input}

theorem eq_none_of_withPacket_idle (h : (s.withPacket o p).phase = .idle) : o = none := by
  cases o with
  | none => rfl
  | some ops => exact nomatch h

theorem eq_some_of_withPacket_opened (hp : s.phase = .idle) (h : (s.withPacket o p).phase = .opened) :
    ∃ ops, o = some ops := by
  cases o with
  | none => exact nomatch hp.symm.trans h
  | some ops => exact ⟨ops, rfl⟩

/-- Without a fault a command goes on with a packet, or it is an END that closes one which the policy accepts. -/
theorem exec_withPacket_cases {i : Instr} (hf : s.fault = false) (hp : s.phase = .idle)
    (h : exec i (s.withPacket o p) = .next t) :
    (∃ c, t = raiseFault c (s.withPacket o p)) ∨
    (∃ ops, t = s.withPacket (some ops) p ∧ openCommands o ++ [i] = openCommands (some ops)) ∨
    (∃ ops, o = some ops ∧ i = .endCmd ∧ (ops ≠ [] ∨ s.emptyPolicy = .accept) ∧
      t = (s.afterPacket ops).withPacket none p) := by
  rcases exec_cases h with ⟨hf', -⟩ | ⟨-, c, -, rfl⟩ | ⟨-, hidle, rfl, -⟩ | ⟨-, hopen, v, rfl, -⟩ |
    ⟨-, hopen, rfl, he, -⟩
  · simp [hf] at hf'
  · exact .inl ⟨c, rfl⟩
  · obtain rfl := eq_none_of_withPacket_idle hidle
    cases h.symm.trans (exec_start_opens hf hp p)
    exact .inr (.inl ⟨[], rfl, rfl⟩)
  · obtain ⟨ops, rfl⟩ := eq_some_of_withPacket_opened hp hopen
    cases h.symm.trans (exec_data_extends hf v)
    exact .inr (.inl ⟨ops ++ [v], rfl, by simp [openCommands]⟩)
  · obtain ⟨ops, rfl⟩ := eq_some_of_withPacket_opened hp hopen
    have hok : ops ≠ [] ∨ s.emptyPolicy = .accept := by
      cases hpol : s.emptyPolicy with
      | accept => exact .inr rfl
      | reject =>
        refine .inl ?_
        rintro rfl
        simp [emptyRejected, State.withPacket, State.withOpenPacket, hpol] at he
    cases h.symm.trans (exec_end_of_openPacket hf hp hok)
    exact .inr (.inr ⟨ops, rfl, rfl, hok, rfl⟩)

end

/-! ### A run of commands -/

theorem runSteps_presents_of_fault {s : State} {cs : List Instr} {rest : List Input} (hf : s.fault = true)
    (h : s.presents cs rest) : runSteps cs.length s = .next { s with port := rest } := by
  obtain ⟨ws, hp, rfl⟩ := h
  rw [List.length_map]
  exact runSteps_commandInputs_of_fault hf hp

/-- The first command of a run is taken, and the others run from the state that it leaves. -/
theorem runSteps_presents_cons {s t : State} {c : Instr} {cs : List Instr} {rest : List Input}
    (h : s.presents (c :: cs) rest) (hrun : runSteps (c :: cs).length s = .next t) :
    ∃ p u, exec c { s with port := p } = .next u ∧ u.presents cs rest ∧ runSteps cs.length u = .next t := by
  obtain ⟨p, hstep, hnext⟩ := step_of_presents h
  obtain ⟨u, hu⟩ := exec_completes c { s with port := p }
  exact ⟨p, u, hu, hnext u hu, (runSteps_succ (hstep.trans hu)).symm.trans hrun⟩

/-- A run without a fault: with those of the packet already open its commands are packets that the policy accepts, then
perhaps an open one, and `wire` has the encodings of the packets (R111, R155). -/
theorem commands_of_run_without_fault {s t : State} {o : Option (List Byte)} {p : List Input} {cs : List Instr}
    {rest : List Input} (hf : s.fault = false) (hp : s.phase = .idle) (h : (s.withPacket o p).presents cs rest)
    (hrun : runSteps cs.length (s.withPacket o p) = .next t) (ht : t.fault = false) :
    ∃ (packets : List (List Byte)) (o' : Option (List Byte)),
      openCommands o ++ cs = packets.flatMap sendCommands ++ openCommands o' ∧
      (∀ vs ∈ packets, vs ≠ [] ∨ s.emptyPolicy = .accept) ∧
      ∃ u q, t = State.withPacket u o' q ∧ u.wire = s.wire ++ packets.flatMap encodePacket := by
  induction cs generalizing s o p with
  | nil =>
    cases hrun
    exact ⟨[], o, by simp, by simp, s, p, rfl, by simp⟩
  | cons c cs ih =>
    obtain ⟨q, u, hu, hnext, hrun⟩ := runSteps_presents_cons h hrun
    rw [withPacket_with_port] at hu
    rcases exec_withPacket_cases hf hp hu with ⟨cause, rfl⟩ | ⟨ops, rfl, hops⟩ | ⟨ops, rfl, rfl, hok, rfl⟩
    · cases hrun.symm.trans (runSteps_presents_of_fault rfl hnext)
      exact nomatch ht
    · obtain ⟨packets, o', hcs, hrest⟩ := ih hf hp hnext hrun
      exact ⟨packets, o', by rw [← hcs, ← hops]; simp, hrest⟩
    · obtain ⟨packets, o', hcs, hpackets, v, q', rfl, hwire⟩ := ih (s := s.afterPacket ops) hf hp hnext hrun
      refine ⟨ops :: packets, o', ?_, List.forall_mem_cons.mpr ⟨hok, hpackets⟩, v, q', rfl, by simp [hwire]⟩
      rw [List.flatMap_cons, List.append_assoc, ← hcs]
      simp [openCommands, sendCommands]

/-- Settles O54: a run that ends well has no fault and no packet open at its end. -/
theorem commandRunThatEndsWellEmitsWholePackets : Obligations.CommandRunThatEndsWellEmitsWholePackets := by
  intro s t cs rest hf hp h hrun hend
  obtain ⟨ht, hidle⟩ : t.fault = false ∧ t.phase = .idle := by simpa [State.endsWell] using hend
  obtain ⟨packets, o, hcs, hok, u, q, rfl, hwire⟩ :=
    commands_of_run_without_fault (o := none) (p := s.port) hf hp h hrun ht
  obtain rfl := eq_none_of_withPacket_idle hidle
  refine ⟨packets, by simpa [openCommands] using hcs, hwire, fun hpol vs hvs => ?_⟩
  simpa [hpol] using hok vs hvs

/-! ### The protocol -/

/-- Packets that END takes, then perhaps START and DATA commands, run without a fault (R158). -/
theorem no_fault_of_followsProtocol {s t : State} {cs : List Instr} {rest : List Input} (hf : s.fault = false)
    (hp : s.phase = .idle) (hpol : s.emptyPolicy = .accept) (h : s.presents cs rest)
    (hrun : runSteps cs.length s = .next t) (hcs : FollowsProtocol cs) : t.fault = false := by
  obtain ⟨packets, last, rfl, hlast⟩ := hcs
  obtain ⟨p, hpackets, hnext⟩ := presents_append h
  obtain ⟨u, hu, -, hidle, hnofault, hport⟩ := runSteps_packets hf hp hpackets fun _ _ => .inr hpol
  rw [List.length_append, runSteps_add hu] at hrun
  rcases hlast with rfl | ⟨ops, rfl⟩
  · cases hrun
    exact hnofault
  · obtain ⟨q, hops, -⟩ := runSteps_start_data hnofault hidle (cs := []) (by simpa using hnext u hport)
    rw [List.length_cons, List.length_map, hops] at hrun
    cases hrun
    exact hnofault

/-- Under ACCEPT only a wrong order of START, DATA and END raises a fault (R125 to R127). -/
theorem Raises.eq_protocol {i : Instr} {s : State} {c : Cause} (h : Raises i s c) (hi : i ≠ .reserved)
    (hpol : s.emptyPolicy = .accept) : c = .protocol := by
  rcases h with ⟨-, rfl⟩ | ⟨rfl, -⟩ | ⟨rfl, -⟩ | ⟨-, -, -, he⟩
  · exact absurd rfl hi
  · rfl
  · rfl
  · simp [emptyRejected, hpol] at he

theorem cause_protocol_of_run {s t : State} {cs : List Instr} {rest : List Input} (hf : s.fault = false)
    (hpol : s.emptyPolicy = .accept) (hcs : .reserved ∉ cs) (h : s.presents cs rest)
    (hrun : runSteps cs.length s = .next t) (ht : t.fault = true) : t.faultCause = .protocol := by
  induction cs generalizing s with
  | nil =>
    cases hrun
    simp [hf] at ht
  | cons c cs ih =>
    obtain ⟨hc, hcs⟩ := List.ne_and_not_mem_of_not_mem_cons hcs
    obtain ⟨p, u, hu, hnext, hrun⟩ := runSteps_presents_cons h hrun
    rcases exec_raises_or_keeps_fault (by exact hf) hu with ⟨cause, hr, rfl⟩ | ⟨hnofault, -⟩
    · cases hrun.symm.trans (runSteps_presents_of_fault rfl hnext)
      exact hr.eq_protocol (hc.symm) hpol
    · exact ih hnofault ((exec_emptyPolicy hu).trans hpol) hcs hnext hrun

/-- Settles O53: the commands of a run without a fault follow the protocol, and those that follow it raise no fault. -/
theorem onlyTheProtocolOrderRunsWithoutFault : Obligations.OnlyTheProtocolOrderRunsWithoutFault := by
  intro s t cs rest hf hp hpol hcs h hrun
  refine ⟨⟨fun ht => ?_, no_fault_of_followsProtocol hf hp hpol h hrun⟩, cause_protocol_of_run hf hpol hcs h hrun⟩
  obtain ⟨packets, o, heq, -⟩ := commands_of_run_without_fault (o := none) (p := s.port) hf hp h hrun ht
  refine ⟨packets, openCommands o, heq, ?_⟩
  cases o with
  | none => exact .inl rfl
  | some ops => exact .inr ⟨ops, rfl⟩

end Sys2Proof.Machine
end

section
/-! SUPPORT. Runs with resets: `wire` is whole and truncated packets, then the bytes of a packet not yet closed
(70_reset_and_hazards R151, R152, R155). -/

namespace Sys2Proof.Machine

/-! ### The bytes of a packet not yet closed -/

theorem wire_prefix_withPacket (s : State) (o : Option (List Byte)) (p : List Input) :
    s.wire <+: (s.withPacket o p).wire := by
  cases o with
  | none => exact List.prefix_rfl
  | some ops => exact List.prefix_append ..

/-- An open packet has put the first bytes of its encoding on `wire`. -/
theorem withPacket_wire_prefix (s : State) (o : Option (List Byte)) (p : List Input) :
    ∃ ops, (s.withPacket o p).wire <+: s.wire ++ encodePacket ops := by
  cases o with
  | none => exact ⟨[], List.prefix_append ..⟩
  | some ops =>
    refine ⟨ops, (List.prefix_append_right_inj _).mpr ?_⟩
    cases ops with
    | nil => exact List.nil_prefix
    | cons v vs => simp [encodePacket_eq]

/-- What starts at `w` and goes on with the first bytes of a packet is `w` and a truncated packet. -/
theorem eq_append_truncated {w bs ops : List Byte} (hw : w <+: bs) (hbs : bs <+: w ++ encodePacket ops) :
    ∃ k, bs = w ++ (WireSegment.truncated ops k).bytes := by
  obtain ⟨cut, rfl⟩ := hw
  have hcut := (List.prefix_append_right_inj _).mp hbs
  exact ⟨cut.length, congrArg _ (List.prefix_iff_eq_take.mp hcut)⟩

/-! ### Commands since the last packet closed -/

/-- Since it was the idle block `v`, the block `u` has taken commands that closed no packet: they left the packet `o`, and
perhaps then a fault. -/
structure State.Since (u v : State) (o : Option (List Byte)) : Prop where
  noFault : v.fault = false
  idle : v.phase = .idle
  wire : u.wire = (v.withPacket o u.port).wire
  registers : u.fault = false → u = v.withPacket o u.port

section
variable {u v t : State} {o : Option (List Byte)}

theorem State.since_self (hf : u.fault = false) (hp : u.phase = .idle) : u.Since u none :=
  ⟨hf, hp, rfl, fun _ => rfl⟩

theorem State.Since.with_port (h : u.Since v o) (p : List Input) : State.Since { u with port := p } v o where
  noFault := h.noFault
  idle := h.idle
  wire := by cases o <;> exact h.wire
  registers hf := by
    rw [h.registers hf, withPacket_with_port]
    cases o <;> rfl

/-- A command closes no packet, or it closes one and appends what its encoding still lacks. -/
theorem State.Since.exec {i : Instr} (h : u.Since v o) (he : exec i u = .next t) :
    (∃ o', t.Since v o') ∨ (t.Since t none ∧ ∃ ops, t.wire = v.wire ++ encodePacket ops) := by
  cases hf : u.fault with
  | true =>
    cases he.symm.trans (exec_of_fault i hf)
    exact .inl ⟨o, h⟩
  | false =>
    rw [h.registers hf] at he
    rcases exec_withPacket_cases h.noFault h.idle he with ⟨c, rfl⟩ | ⟨ops, rfl, -⟩ | ⟨ops, -, -, -, rfl⟩
    · exact .inl ⟨o, h.noFault, h.idle, by cases o <;> rfl, nofun⟩
    · exact .inl ⟨some ops, h.noFault, h.idle, rfl, fun _ => rfl⟩
    · exact .inr ⟨State.since_self h.noFault h.idle, ops, rfl⟩

theorem State.Since.wire_prefix (h : u.Since v o) : v.wire <+: u.wire :=
  h.wire ▸ wire_prefix_withPacket v o u.port

theorem State.Since.exists_prefix (h : u.Since v o) : ∃ ops, u.wire <+: v.wire ++ encodePacket ops :=
  h.wire ▸ withPacket_wire_prefix v o u.port

/-- However much of a command's emit list is let through, `wire` ends with the first bytes of one packet (R151). -/
theorem State.Since.cut (h : u.Since v o) (i : Instr) (k : Nat) :
    ∃ ops k', u.wire ++ (emitted i u).take k = v.wire ++ (WireSegment.truncated ops k').bytes := by
  obtain ⟨t, he⟩ := exec_completes i u
  obtain ⟨ops, hops⟩ : ∃ ops, t.wire <+: v.wire ++ encodePacket ops := by
    rcases h.exec he with ⟨o', ht⟩ | ⟨-, ops, hwire⟩
    · exact ht.exists_prefix
    · exact ⟨ops, hwire ▸ List.prefix_rfl⟩
  have hcut : u.wire ++ (emitted i u).take k <+: t.wire := by
    rw [exec_wire he, List.prefix_append_right_inj]
    exact List.take_prefix ..
  exact ⟨ops, eq_append_truncated (h.wire_prefix.trans (List.prefix_append ..)) (hcut.trans hops)⟩

end

/-! ### The segments of `wire` -/

/-- Past the bytes `w`, `wire` is segments, at most `n` of them truncated, then the bytes of a packet not yet closed. -/
def State.Segmented (u : State) (w : List Byte) (n : Nat) : Prop :=
  ∃ (segs : List WireSegment) (v : State) (o : Option (List Byte)),
    u.Since v o ∧ v.wire = w ++ segs.flatMap WireSegment.bytes ∧ segs.countP WireSegment.isTruncated ≤ n

section
variable {u v t : State} {w : List Byte} {n : Nat}

theorem State.segmented_of_idle (hf : u.fault = false) (hp : u.phase = .idle) : u.Segmented u.wire 0 :=
  ⟨[], u, none, State.since_self hf hp, by simp, by simp⟩

theorem State.Segmented.exec {i : Instr} {p : List Input} (h : u.Segmented w n)
    (he : exec i { u with port := p } = .next t) : t.Segmented w n := by
  obtain ⟨segs, v, o, hu, hv, hn⟩ := h
  rcases (hu.with_port p).exec he with ⟨o', ht⟩ | ⟨ht, ops, hwire⟩
  · exact ⟨segs, v, o', ht, hv, hn⟩
  · exact ⟨segs ++ [.whole ops], t, none, ht, by simp [hwire, hv, WireSegment.bytes],
      by simpa [WireSegment.isTruncated] using hn⟩

/-- A reset, inside a command or not, makes one more truncated packet of the bytes of the packet not yet closed. -/
theorem State.Segmented.resetDuring (h : u.Segmented w n) (i : Instr) (k : Nat) (p : List Input) :
    (Machine.resetDuring i k { u with port := p }).Segmented w (n + 1) := by
  obtain ⟨segs, v, o, hu, hv, hn⟩ := h
  obtain ⟨ops, k', hwire⟩ := (hu.with_port p).cut i k
  refine ⟨segs ++ [.truncated ops k'], _, none, State.since_self rfl rfl, ?_, ?_⟩
  · rw [List.flatMap_append, ← List.append_assoc, ← hv, List.flatMap_singleton]
    exact hwire
  · simpa [WireSegment.isTruncated] using hn

/-- A plain reset lets nothing of any command through. -/
theorem resetDuring_zero (i : Instr) (s : State) : resetDuring i 0 s = resetBlock s := by
  simp [resetDuring, emit]

theorem State.Segmented.step {e : Input} {rest : List Input} (h : u.Segmented w n) (hp : u.port = e :: rest)
    (hs : step u = .next t) : t.Segmented w (n + [e].countP Input.isReset) := by
  rw [step_of_cons hp] at hs
  cases e with
  | command c => exact h.exec hs
  | reset =>
    cases hs
    exact resetDuring_zero .start _ ▸ h.resetDuring .start 0 rest
  | commandCutByReset c k =>
    cases hs
    exact h.resetDuring (decode c) k rest

theorem State.Segmented.runSteps {inputs rest : List Input} (h : u.Segmented w n) (hp : u.port = inputs ++ rest)
    (hrun : runSteps inputs.length u = .next t) : t.Segmented w (n + inputs.countP Input.isReset) := by
  induction inputs generalizing u n with
  | nil =>
    cases hrun
    exact h
  | cons e inputs ih =>
    obtain ⟨s, hs, hrun⟩ := runSteps_succ_inv hrun
    have hport : s.port = inputs ++ rest := by simp [step_port hs, hp]
    rw [← List.singleton_append, List.countP_append, ← Nat.add_assoc]
    exact ih (h.step hp hs) hport hrun

end

/-- Settles O55: every input keeps `wire` in segments, and at a good end no packet is open after them. -/
theorem runThatEndsWellEmitsPacketsAndCutPackets : Obligations.RunThatEndsWellEmitsPacketsAndCutPackets := by
  intro s t inputs rest hf hp hport hrun hend
  obtain ⟨ht, hidle⟩ : t.fault = false ∧ t.phase = .idle := by simpa [State.endsWell] using hend
  obtain ⟨segs, v, o, hsince, hv, hn⟩ := (State.segmented_of_idle hf hp).runSteps hport hrun
  have heq := hsince.registers ht
  obtain rfl := eq_none_of_withPacket_idle (heq ▸ hidle)
  exact ⟨segs, hsince.wire.trans hv, by simpa using hn⟩

end Sys2Proof.Machine
end
